-- ==== Sys2Proof/Word.lean ====
section
/-! DEFINITION. The plain data types of the ULEB128 codec block: bytes, payload groups, words. -/
namespace Sys2Proof

/-- A byte of `IN` or `OUT` (`20_memory.md` R51: a byte is 8 bits). -/
abbrev Byte := BitVec 8

/-- A payload group: a byte's low 7 bits (`30_encoding.md` R70). -/
abbrev Payload := BitVec 7

/-- The container of a machine word. On a build with `W = 64` it is the word; on a build with `W = 32` the word
is its low 32 bits, and every write to a `W`-bit register goes through `Machine.truncWord`. It is also the type of the
values that are 64 bits wide whatever `W` is (`00_scope.md` R14). -/
abbrev Word := BitVec 64

end Sys2Proof
end

