-- ==== Sys2Proof/Config.lean ====
section
/-! DEFINITION. What a build of the block fixes (`W`, `NMAX`, `ENC_FAIL_PREFIX`) and the free values of the spec. -/
namespace Sys2Proof

/-- The platform word width `W`: exactly the two legal values 32 and 64 (`00_scope.md` R12). -/
inductive Width where
  | w32
  | w64
deriving DecidableEq, Repr

/-- `W` in bits (`00_scope.md` R12). -/
def Width.bits : Width → Nat
  | .w32 => 32
  | .w64 => 64

/-- `H = W / 2`, the half width in bits (`00_scope.md` R13). -/
def Width.half : Width → Nat
  | .w32 => 16
  | .w64 => 32

/-- `ENC_FAIL_PREFIX`: how much of the output buffer a failing encode writes (`42_encoder.md` R122). -/
inductive FailPrefix where
  /-- `NONE`: nothing (the size is checked first). -/
  | none
  /-- `FULL`: the whole buffer (bytes are written until it is full). -/
  | full
  /-- `ANY`: a free choice between 0 and `CAP`. -/
  | any
deriving DecidableEq, Repr

/-- The parameters a build fixes (`92_eei_decisions.md`, parameters left OPEN; `70_reset_and_hazards.md` R193). They stand
in the state because `exec` and `step` take nothing else, and no step writes them (log 2). -/
structure Config where
  /-- `W` (`00_scope.md` R12). -/
  width : Width
  /-- `NMAX`; `none` is "unbounded", the spec's default (`00_scope.md` R15). -/
  nmax : Option Nat
  /-- `ENC_FAIL_PREFIX` (`00_scope.md` R17). -/
  failPrefix : FailPrefix
deriving DecidableEq, Repr

namespace Config

/-- The build `State.reset` stands for: the spec's defaults for `NMAX` (unbounded) and `ENC_FAIL_PREFIX` (`ANY`); it gives
none for `W`. DESIGN CHOICE (log 2): `W = 64`; unsafe only for a claim about `State.reset` that names `W`. -/
def standard : Config := { width := .w64, nmax := Option.none, failPrefix := .any }

/- The free values. Each is a constant without a body, applied to the counter `State.draws`: nothing in Lean can say what
it is (log 4; safe). -/

/-- `OK` after an operation that does not write it (`10_state.md` R23, R24; log 9). -/
opaque freeOk : Nat → Bool

/-- `COUNT` after a failing encode: "any value" (`42_encoder.md` R121, U2). -/
opaque freeCount : Nat → Nat

/-- The draw from which `ANY` takes the length of the written prefix (`42_encoder.md` R122, U5). -/
opaque freePrefix : Nat → Nat

/-- `KIND` where no decode delivered it, `true` for `BIG` (`43_decoder.md` R151, U3; `10_state.md` R23; log 9). -/
opaque freeKind : Nat → Bool

/-- `RES64` where it is not the delivered result (`43_decoder.md` R150, R151; U3, U4; log 9). -/
opaque freeRes64 : Nat → Word

/-- `RES_NW` where `RW` is not the delivered result (`43_decoder.md` R150, R151; U3, U4; log 9). -/
opaque freeResNW : Nat → Nat

/-- The contents of `RW` where it is not the delivered result (`43_decoder.md` R150, R151; U3, U4; log 9). -/
opaque freeRW : Nat → List Word

end Config

end Sys2Proof
end

