-- ==== Sys2Proof/Machine/State.lean ====
section
/-! DEFINITION. The state of the block: build parameters, operand ports, data spaces, result ports, working registers; its
faults (none) and refusals; the state after reset. -/
namespace Sys2Proof.Machine

/-- A data space of `n`-bit cells (`20_memory.md` R50): the listed cells, addresses strictly rising, no value zero.
An address that is not listed reads zero (log 5). -/
abbrev Space (n : Nat) := List (Nat × BitVec n)

/-- A byte-addressed space, `OUT` or `IN` (`20_memory.md` R51); it is a list of `Host.Cell`. -/
abbrev Memory := Space 8

/-- A word-addressed space, `VW` or `RW` (`20_memory.md` R51). -/
abbrev WordMemory := Space 64

/-- The operand ports (`10_state.md` R22). The host sets them; no step writes them. -/
structure Ports where
  /-- `OP`, 3 bits: the operation code. -/
  op : BitVec 3
  /-- `VAL64`, 64 bits: the fixed-width Value. -/
  val64 : BitVec 64
  /-- `NWORDS`: the number of words of the value word sequence. -/
  nwords : Nat
  /-- `CAP`: the capacity in bytes of the output buffer. -/
  cap : Nat
  /-- `LEN`: the number of input bytes available. -/
  len : Nat
  /-- `PRE_VALUE`, 64 bits: the pre-seeded low-order bit value. -/
  preValue : BitVec 64
  /-- `PRE_BITS`, 7 bits: the pre-bit-count, legal 0 to 64. -/
  preBits : BitVec 7
deriving DecidableEq, Repr

/-- The result kind on the `KIND` port (`10_state.md` R23): 0 is `u64`, 1 is `big`. -/
inductive ResultKind where
  | u64
  | big
deriving DecidableEq, Repr

/-- The result ports (`10_state.md` R23). -/
structure Results where
  /-- `OK`: 1 is success, 0 the operation's one error kind. -/
  ok : Bool
  /-- `COUNT`: bytes needed, written or consumed. -/
  count : Nat
  /-- `KIND`: which result a decode delivers. -/
  kind : ResultKind
  /-- `RES64`: the 64-bit integer result. -/
  res64 : BitVec 64
  /-- `RES_NW`: the number of result words. -/
  resNW : Nat
  /-- `RW`: the result words, least-significant word at index 0. -/
  rw : WordMemory
deriving DecidableEq, Repr

/-- The working registers of the SizeEstimator (`10_state.md` R26). -/
structure SizeRegs where
  /-- `sv`, 64 bits: the remaining value. -/
  sv : BitVec 64
  /-- `sn`: the count. -/
  sn : Nat
deriving DecidableEq, Repr

/-- The half of a word, the values 0 and 1 of `ehalf` (`10_state.md` R31). -/
inductive Half where
  | low
  | high
deriving DecidableEq, Repr

/-- The working registers of the Encoder (`10_state.md` R28 to R32). -/
structure EncRegs where
  /-- `ev`, 64 bits: the fixed-width path's remaining value (R28). -/
  ev : BitVec 64
  /-- `eacc`, `W` bits: the word-array path's accumulator (R29). -/
  eacc : Word
  /-- `estep`, 4 bits, range 0 to 13: the step counter that indexes BitGroupTables (R30). -/
  estep : Fin 14
  /-- `ewi`: the index of the word being processed (R31). -/
  ewi : Nat
  /-- `ehalf`, 1 bit (R31). -/
  ehalf : Half
  /-- `eg`, 3 bits: groups still to flush for the current half (R31). -/
  eg : BitVec 3
  /-- `epos`: the offset in the output buffer of the next byte to write (R32). -/
  epos : Nat
deriving DecidableEq, Repr

/-- The working registers of the Decoder (`10_state.md` R33 to R37). -/
structure DecRegs where
  /-- `dpv`, 64 bits: the masked pre-value, while seeding (R37). -/
  dpv : BitVec 64
  /-- `drem`, 7 bits: the seed bits not yet placed (R37). -/
  drem : BitVec 7
  /-- `dacc`, `W` bits: the accumulator (R33). -/
  dacc : Word
  /-- `doff`, 7 bits: the bit offset (R34). -/
  doff : BitVec 7
  /-- `dws`: the word sequence being built, least-significant word first (R35). -/
  dws : List Word
  /-- `dnw = len(dws)` (R35). -/
  dnw : Nat
  /-- `di`: the index of the next input byte (R36). -/
  di : Nat
deriving DecidableEq, Repr

/-- What the block is doing between two steps: idle (`10_state.md` R43), or between two per-byte steps of a decode
(`43_decoder.md` R148; log 3). -/
inductive Phase where
  | idle
  | decoding
deriving DecidableEq, Repr

/-- The state: everything INVENTORY.md lists under State. -/
structure State where
  /-- The build parameters, fixed (`70_reset_and_hazards.md` R193; log 2). -/
  cfg : Config
  /-- Idle or decoding. -/
  phase : Phase
  /-- The operand ports (`10_state.md` R22). -/
  ports : Ports
  /-- `VW`, the value words (`20_memory.md` R52). -/
  vw : WordMemory
  /-- `OUT`, the output buffer (`20_memory.md` R53). -/
  out : Memory
  /-- How many bytes of the output buffer the caller really owns (`60_exceptions.md` R178; log 6). -/
  outSize : Nat
  /-- `IN`, the input byte sequence (`20_memory.md` R54). -/
  inp : Memory
  /-- How many bytes of input the caller really owns (`60_exceptions.md` R178; log 6). -/
  inSize : Nat
  /-- Another agent touches a data space of the operation while it runs (`60_exceptions.md` R178; log 6). -/
  contended : Bool
  /-- The result ports (`10_state.md` R23). -/
  res : Results
  /-- The SizeEstimator's registers. -/
  size : SizeRegs
  /-- The Encoder's registers. -/
  enc : EncRegs
  /-- The Decoder's registers. -/
  dec : DecRegs
  /-- The model's own counter of free values drawn (log 4). -/
  draws : Nat
deriving DecidableEq, Repr

/-- The faults of the block: none. The two error kinds are reported by `OK = 0` in a next state, "not an
exception/crash" (`60_exceptions.md` R170), and there is no other exception (R180, R182). -/
inductive Fault where
deriving DecidableEq, Repr

/-- Why the model gives an operation no outcome (`60_exceptions.md` R176, R178). All are safe: nothing can be proved
of a refused operation. -/
inductive Refusal where
  /-- Raised by an arm of `exec` whose instruction has no meaning yet; safe. -/
  | notModelled (mnemonic : String)
  /-- BadOp: raised by RESERVED.6 and RESERVED.7 (R79, R178); safe. -/
  | badOp
  /-- NonNormalValue: raised by SIZE.BIG and ENC.BIG on two or more words with a zero highest word (R178); safe. -/
  | nonNormalValue
  /-- PreBitsRange: raised by DEC.C on `PRE_BITS > 64` (R178); safe. -/
  | preBitsRange
  /-- NmaxExceeded: raised by SIZE.BIG and ENC.BIG on `NWORDS > NMAX`, by DEC, DEC.C, CONT and TERM when the decoder
  would append word number `NMAX + 1` (R178); safe. -/
  | nmaxExceeded
  /-- BufferShared: raised by ENC.U64, ENC.BIG, DEC, DEC.C, by SIZE.BIG for `VW`, and by CONT, TERM and the step that
  finds the input used up, when another agent touches a data space of the operation (R178; `20_memory.md` R66; log 6);
  safe. -/
  | bufferShared
  /-- BufferBounds: raised by ENC.U64, ENC.BIG, DEC, DEC.C, and by CONT, TERM and the step that finds the input used up,
  when `CAP` or `LEN` is larger than the buffer the caller really owns (R178; log 6); safe. -/
  | bufferBounds
  /-- Raised by CONT and TERM when no decode is in progress: the block then reads no input byte, and an operation may
  not use registers it has not written (`10_state.md` R42; log 8); safe. -/
  | noDecodeInProgress
deriving DecidableEq, Repr

/-- The state after reset: idle (`10_state.md` R43). The spec leaves every register and port unspecified (R42, R43) and
reset gives the caller no buffers. DESIGN CHOICE (log 1; unsafe): zero, empty, false. -/
def State.reset : State where
  cfg := Config.standard
  phase := .idle
  ports := { op := 0, val64 := 0, nwords := 0, cap := 0, len := 0, preValue := 0, preBits := 0 }
  vw := []
  out := []
  outSize := 0
  inp := []
  inSize := 0
  contended := false
  res := { ok := false, count := 0, kind := .u64, res64 := 0, resNW := 0, rw := [] }
  size := { sv := 0, sn := 0 }
  enc := { ev := 0, eacc := 0, estep := 0, ewi := 0, ehalf := .low, eg := 0, epos := 0 }
  dec := { dpv := 0, drem := 0, dacc := 0, doff := 0, dws := [], dnw := 0, di := 0 }
  draws := 0

end Sys2Proof.Machine
end

