-- ==== Sys2Proof/Machine/Ops.lean ====
section
/-! DEFINITION. The named operations over data spaces and registers, the two errors, the successful ends, and reset. -/
namespace Sys2Proof.Machine

/-! ## Cells of a data space -/

/-- The value at an address: the listed one, else zero (log 5). -/
def readCell {n : Nat} : Space n → Nat → BitVec n
  | [], _ => 0
  | (b, v) :: rest, a => if a = b then v else readCell rest a

/-- Inserts a cell before the first higher address. -/
def insertCell {n : Nat} : Space n → Nat → BitVec n → Space n
  | [], a, v => [(a, v)]
  | (b, u) :: rest, a, v => if a < b then (a, v) :: (b, u) :: rest else (b, u) :: insertCell rest a v

/-- Removes what is listed at an address. -/
def eraseCell {n : Nat} : Space n → Nat → Space n
  | [], _ => []
  | (b, u) :: rest, a => if a = b then eraseCell rest a else (b, u) :: eraseCell rest a

/-- Writes a cell, keeping the canonical form: writing zero removes the entry. Every write stores exactly the value given
(`20_memory.md` R64). -/
def writeCell {n : Nat} (m : Space n) (a : Nat) (v : BitVec n) : Space n :=
  if v = 0 then eraseCell m a else insertCell (eraseCell m a) a v

/-- Addresses strictly rising from a lower bound, no zero value listed. -/
def cellsFrom {n : Nat} : Nat → Space n → Bool
  | _, [] => true
  | lo, (a, v) :: rest => decide (lo ≤ a) && (decide (v ≠ 0) && cellsFrom (a + 1) rest)

/-- The canonical form of a data space. -/
def Memory.wf {n : Nat} (m : Space n) : Bool := cellsFrom 0 m

/-- Writes values at consecutive addresses from a start. -/
def writeFrom {n : Nat} : Space n → Nat → List (BitVec n) → Space n
  | m, _, [] => m
  | m, a, v :: vs => writeFrom (writeCell m a v) (a + 1) vs

/-- The buffer that has the first `k` cells of one space and every other cell of another. -/
def keepPrefix {n : Nat} (old new : Space n) : Nat → Space n
  | 0 => old
  | k + 1 => writeCell (keepPrefix old new k) k (readCell new k)

/-! ## Fields of a word -/

/-- `v[W-1:0]`: what a `W`-bit register keeps of a value (`00_scope.md` R18). -/
def truncWord (w : Width) (v : Word) : Word :=
  match w with
  | .w32 => v &&& 0xFFFFFFFF
  | .w64 => v

/-- The low half of a word, bits `H-1:0` (`20_memory.md` R58). -/
def lowHalf (w : Width) (v : Word) : Word :=
  match w with
  | .w32 => v &&& 0xFFFF
  | .w64 => v &&& 0xFFFFFFFF

/-- The high half of a word, bits `W-1:H` (`20_memory.md` R58). -/
def highHalf (w : Width) (v : Word) : Word :=
  match w with
  | .w32 => (v >>> 16) &&& 0xFFFF
  | .w64 => v >>> 32

/-- The low 7 bits of a value, the group the encoder emits next (`42_encoder.md` R112, R114). -/
def lowGroup (v : Word) : Payload := v.setWidth 7

/-- `bitlen(v)`: 0 for 0, else the index of the highest set bit plus 1 (`00_scope.md` R18). -/
def bitLength (v : Nat) : Nat := if v = 0 then 0 else Nat.log2 v + 1

/-- `ceil(v / 7)` (`00_scope.md` R18). -/
def groupsOfBits (v : Nat) : Nat := (v + 6) / 7

/-! ## The memory primitives -/

/-- `MemRead(VW, i, W)` (`20_memory.md` R52). -/
def readValueWord (s : State) (i : Nat) : Word := truncWord s.cfg.width (readCell s.vw i)

/-- `MemRead(IN, i, 1)` (`20_memory.md` R54). -/
def readInput (s : State) (i : Nat) : Byte := readCell s.inp i

/-- `MemWrite(OUT, i, 1, b)` on the contents of the buffer (`20_memory.md` R53). -/
def writeOutput (out : Memory) (i : Nat) (b : Byte) : Memory := writeCell out i b

/-- `MemWrite(RW, i, W, dws[i])` for each word of the sequence: the contents of the result word space
(`20_memory.md` R55). -/
def writeResultWords (ws : List Word) : WordMemory := writeFrom [] 0 ws

/-! ## NMAX -/

/-- A word sequence of `n` words is more than the build holds (`00_scope.md` R15, `60_exceptions.md` R178). -/
def overNmax (nmax : Option Nat) (n : Nat) : Bool :=
  match nmax with
  | none => false
  | some k => decide (k < n)

/-! ## Ends of an operation: `done(...)` and `raise <ErrorKind>` (`00_scope.md` R18) -/

/-- Result ports of which every one holds any value (`10_state.md` R24; log 4). The end of an operation puts over them
what the operation delivers; a port it does not deliver "holds no meaning after it" (R23; log 9). -/
def freeResults (w : Width) (d : Nat) : Results where
  ok := Config.freeOk d
  count := Config.freeCount d
  kind := if Config.freeKind d then .big else .u64
  res64 := Config.freeRes64 d
  resNW := Config.freeResNW d
  rw := writeResultWords ((Config.freeRW d).map (truncWord w))

/-- How many bytes a failing encode leaves in the buffer, by `ENC_FAIL_PREFIX` (`42_encoder.md` R122). -/
def failingPrefix (c : Config) (cap d : Nat) : Nat :=
  match c.failPrefix with
  | .none => 0
  | .full => cap
  | .any => Config.freePrefix d % (cap + 1)

/-- `raise InsufficientCapacity` (`60_exceptions.md` R171): the operation ends with `OK = 0` and an unspecified `COUNT`
(`42_encoder.md` R121), the buffer holding the prefix R122 allows of the bytes the encoder had written (log 4, log 15). -/
def raiseInsufficientCapacity (s : State) (r : EncRegs) (written : Memory) : State :=
  { s with
    phase := .idle
    enc := r
    out := keepPrefix s.out written (failingPrefix s.cfg s.ports.cap s.draws)
    res := { freeResults s.cfg.width s.draws with ok := false }
    draws := s.draws + 1 }

/-- `raise Unterminated` (`60_exceptions.md` R172): the operation ends with `OK = 0`, `COUNT = 0` and every other result port
unspecified (`43_decoder.md` R151). -/
def raiseUnterminated (s : State) : State :=
  { s with
    phase := .idle
    res := { freeResults s.cfg.width s.draws with ok := false, count := 0 }
    draws := s.draws + 1 }

/-- The successful end of SIZE.U64 and SIZE.BIG: `COUNT` alone is delivered, no other result port has meaning after it
(`10_state.md` R23, R24). -/
def doneSize (s : State) (r : SizeRegs) (count : Nat) : State :=
  { s with
    phase := .idle
    size := r
    res := { freeResults s.cfg.width s.draws with count := count }
    draws := s.draws + 1 }

/-- The successful end of ENC.U64 and ENC.BIG: `done(COUNT <- epos, OK <- 1)` (`42_encoder.md` R119); the ports of a decode
have no meaning after it (`10_state.md` R23, R24). -/
def doneEncode (s : State) (r : EncRegs) (written : Memory) : State :=
  { s with
    phase := .idle
    enc := r
    out := written
    res := { freeResults s.cfg.width s.draws with ok := true, count := r.epos }
    draws := s.draws + 1 }

/-- The successful end of a decode whose result is a 64-bit integer; `RES_NW` and `RW` are free (`43_decoder.md` R150). -/
def doneDecodeU64 (s : State) (r : DecRegs) (v : BitVec 64) : State :=
  { s with
    phase := .idle
    dec := r
    res :=
      { freeResults s.cfg.width s.draws with ok := true, count := r.di, kind := .u64, res64 := v }
    draws := s.draws + 1 }

/-- The successful end of a decode whose result is a word sequence; `RES64` is free (`43_decoder.md` R150). -/
def doneDecodeBig (s : State) (r : DecRegs) : State :=
  { s with
    phase := .idle
    dec := r
    res :=
      { freeResults s.cfg.width s.draws with
        ok := true, count := r.di, kind := .big, resNW := r.dnw, rw := writeResultWords r.dws }
    draws := s.draws + 1 }

/-! ## Reset -/

/-- The reset input (`70_reset_and_hazards.md` R190): the block is idle, its working registers and result ports are those
of `State.reset` (log 1); the operand ports and data spaces are the caller's and stay (`10_state.md` R44), the build is
fixed. It is no step: the host applies it (log 11). -/
def applyReset (s : State) : State :=
  { State.reset with
    cfg := s.cfg
    ports := s.ports
    vw := s.vw
    out := s.out
    outSize := s.outSize
    inp := s.inp
    inSize := s.inSize
    contended := s.contended
    draws := s.draws }

end Sys2Proof.Machine
end

