-- ==== Sys2Proof/Machine/Flags.lean ====
section
/-! DEFINITION. The continuation flag of wire bytes, and the choice of `KIND`. `OK` and `KIND` themselves are written by the
ends of an operation in Machine/Ops.lean. -/
namespace Sys2Proof.Machine

/-- The continuation flag of a wire byte, bit 7 (`30_encoding.md` R70, `10_state.md` R40). -/
def contFlag (b : Byte) : Bool := b.getLsbD 7

/-- The payload of a wire byte, bits 6:0 (`30_encoding.md` R70). -/
def payload (b : Byte) : Payload := b.extractLsb' 0 7

/-- The byte the encoder emits for a group: `b | 0x80` when more bytes follow (`42_encoder.md` R112, R114, R116). -/
def wireByte (more : Bool) (p : Payload) : Byte :=
  if more then p.setWidth 8 ||| 0x80 else p.setWidth 8

/-- `KIND` from the number of words: `U64` for at most one word on a 64-bit build and at most two on a 32-bit build
(`43_decoder.md` R146, R147, R155). -/
def kindOfWords (w : Width) (dnw : Nat) : ResultKind :=
  match w with
  | .w64 => if dnw ≤ 1 then .u64 else .big
  | .w32 => if dnw ≤ 2 then .u64 else .big

end Sys2Proof.Machine
end

