-- ==== Sys2Proof/Machine/Operands.lean ====
section
/-! DEFINITION. The operand forms: word-sequence values, the continuation seed, and the checks of operands. -/
namespace Sys2Proof.Machine

/-! ## Values -/

/-- The words `VW[0 .. NWORDS-1]` (`20_memory.md` R52). -/
def valueWords (s : State) : List Word := (List.range s.ports.nwords).map (readValueWord s)

/-- The two word-sequence forms of zero: no word, or a single zero word (`42_encoder.md` R113, `90_conflicts.md` C6). -/
def isZeroValue (s : State) : Bool :=
  decide (s.ports.nwords = 0) || (decide (s.ports.nwords = 1) && decide (readValueWord s 0 = 0))

/-- Two or more words with a zero highest word: no Value (`60_exceptions.md` R178). -/
def nonNormalValue (s : State) : Bool :=
  decide (2 ≤ s.ports.nwords) && decide (readValueWord s (s.ports.nwords - 1) = 0)

/-! ## The seed -/

/-- `PRE_VALUE & (2^PRE_BITS - 1)` (`43_decoder.md` R142). -/
def maskSeed (pv : BitVec 64) (pb : BitVec 7) : BitVec 64 := pv &&& ((1#64 <<< pb.toNat) - 1#64)

/-! ## Refusals of operands (`60_exceptions.md` R177 to R179) -/

/-- The first check that holds names the refusal. -/
def firstRefusal : List (Bool × Refusal) → Option Refusal
  | [] => none
  | (c, r) :: rest => if c then some r else firstRefusal rest

/-- What SIZE.BIG refuses. `BufferShared` is refused of every operation that reads or writes a data space, of SIZE.BIG for
`VW` too (`20_memory.md` R66, `70_reset_and_hazards.md` R195; log 6). -/
def refusalSizeBig (s : State) : Option Refusal :=
  firstRefusal
    [(overNmax s.cfg.nmax s.ports.nwords, .nmaxExceeded), (s.contended, .bufferShared),
      (nonNormalValue s, .nonNormalValue)]

/-- What ENC.U64 refuses. -/
def refusalEncU64 (s : State) : Option Refusal :=
  firstRefusal [(decide (s.outSize < s.ports.cap), .bufferBounds), (s.contended, .bufferShared)]

/-- What ENC.BIG refuses; `NonNormalValue` is found last, by reading the highest word (R177). Where `BufferBounds` and
`BufferShared` stand in the order is a DESIGN CHOICE (log 7; safe). -/
def refusalEncBig (s : State) : Option Refusal :=
  firstRefusal
    [(overNmax s.cfg.nmax s.ports.nwords, .nmaxExceeded), (decide (s.outSize < s.ports.cap), .bufferBounds),
      (s.contended, .bufferShared), (nonNormalValue s, .nonNormalValue)]

/-- What DEC refuses before its first micro-step, and a decode in progress before each further one: the buffers are the
operation's alone "from its start to its end" (`20_memory.md` R66). -/
def refusalDec (s : State) : Option Refusal :=
  firstRefusal [(decide (s.inSize < s.ports.len), .bufferBounds), (s.contended, .bufferShared)]

/-- What DEC.C refuses before its first micro-step. -/
def refusalDecC (s : State) : Option Refusal :=
  firstRefusal
    [(decide (64 < s.ports.preBits.toNat), .preBitsRange), (decide (s.inSize < s.ports.len), .bufferBounds),
      (s.contended, .bufferShared)]

end Sys2Proof.Machine
end

