-- ==== Sys2Proof/Machine/Decoder.lean ====
section
/-! DEFINITION. DEC, DEC.C and the wire bytes CONT and TERM (`43_decoder.md`). -/
namespace Sys2Proof.Machine

/-! ## Words and bytes -/

/-- Closes out a word: appends it to the word sequence (`43_decoder.md` R143, R144, R145). `none` when it would be word
number `NMAX + 1` (`60_exceptions.md` R178). -/
def appendWord (nmax : Option Nat) (v : Word) (r : DecRegs) : Option DecRegs :=
  if overNmax nmax (r.dws.length + 1) then none
  else some { r with dws := r.dws ++ [v], dnw := r.dws.length + 1 }

/-- The spilling loop of the seed (`43_decoder.md` R143). The bound is the number of iterations left; 2 are enough for 64
bits of seed. -/
def spillSeed (w : Width) (nmax : Option Nat) : Nat → DecRegs → Option DecRegs
  | 0, r => some r
  | k + 1, r =>
    if r.drem.toNat < w.bits then some r
    else
      match appendWord nmax (truncWord w r.dpv) r with
      | none => none
      | some r => spillSeed w nmax k { r with dpv := r.dpv >>> w.bits, drem := r.drem - BitVec.ofNat 7 w.bits }

/-- Seeding (`43_decoder.md` R142, R143): mask, spill whole words, the rest is the accumulator and the bit offset. The word
sequence and the input index start empty and at 0 (`10_state.md` R35, R36). -/
def seed (w : Width) (nmax : Option Nat) (pv : BitVec 64) (pb : BitVec 7) (r : DecRegs) : Option DecRegs :=
  match spillSeed w nmax 2 { r with dpv := maskSeed pv pb, drem := pb, dws := [], dnw := 0, di := 0 } with
  | none => none
  | some r => some { r with dacc := truncWord w r.dpv, doff := r.drem }

/-- `di <- di + 1`: a byte is consumed (`43_decoder.md` R148). -/
def nextIndex (r : DecRegs) : DecRegs := { r with di := r.di + 1 }

/-- `byte_step(b)` (`43_decoder.md` R144) for a byte with payload `p`. -/
def byteStep (w : Width) (nmax : Option Nat) (p : Payload) (r : DecRegs) : Option DecRegs :=
  let acc := truncWord w (r.dacc ||| (p.setWidth 64 <<< r.doff.toNat))
  let off := r.doff + 7#7
  if off.toNat < w.bits then some { r with dacc := acc, doff := off }
  else
    match appendWord nmax acc { r with dacc := acc, doff := off } with
    | none => none
    | some r =>
      let wrapped := off - BitVec.ofNat 7 w.bits
      some { r with doff := wrapped, dacc := (p >>> (7 - wrapped.toNat)).setWidth 64 }

/-- `terminate` (`43_decoder.md` R145): a trailing accumulator that is not zero is closed out; `dnw` is the number of
words. -/
def terminate (nmax : Option Nat) (r : DecRegs) : Option DecRegs :=
  if r.dacc = 0 then some { r with dnw := r.dws.length } else appendWord nmax r.dacc r

/-- The 64-bit integer result (`43_decoder.md` R146, R147): the accumulator when no word resulted on a 64-bit build, 0 on a
32-bit build; the one word; the two words of a 32-bit build as low and high halves. -/
def res64OfWords (w : Width) (r : DecRegs) : BitVec 64 :=
  match r.dws with
  | [] => match w with
    | .w64 => r.dacc
    | .w32 => 0
  | [v] => v
  | v :: v' :: _ => (v' <<< 32) ||| v

/-- The final representation (`43_decoder.md` R146, R147): by the number of words. -/
def finishDecode (s : State) (r : DecRegs) : State :=
  match kindOfWords s.cfg.width r.dnw with
  | .u64 => doneDecodeU64 s r (res64OfWords s.cfg.width r)
  | .big => doneDecodeBig s r

/-! ## The wire bytes -/

/-- One byte of a decode in progress that does not end it: the index advances, the payload is accumulated
(`43_decoder.md` R144, R148). -/
def takeCont (p : Payload) (s : State) : Host.Outcome State Fault Refusal :=
  match byteStep s.cfg.width s.cfg.nmax p (nextIndex s.dec) with
  | none => .refused .nmaxExceeded
  | some r => .next { s with dec := r }

/-- The byte that ends a decode in progress: its payload is accumulated first, then termination and the final
representation (`43_decoder.md` R144 to R148). -/
def takeTerm (p : Payload) (s : State) : Host.Outcome State Fault Refusal :=
  match byteStep s.cfg.width s.cfg.nmax p (nextIndex s.dec) with
  | none => .refused .nmaxExceeded
  | some r =>
    match terminate s.cfg.nmax r with
    | none => .refused .nmaxExceeded
    | some r => .next (finishDecode s r)

/-- What a micro-step of a decode in progress refuses: there is none in progress (log 8), or its buffers are not its own
(`20_memory.md` R66, `60_exceptions.md` R178). -/
def refusalByte (s : State) : Option Refusal :=
  match s.phase with
  | .idle => some .noDecodeInProgress
  | .decoding => refusalDec s

/-- CONT (`30_encoding.md` R71, `43_decoder.md` R144), in a decode in progress. DESIGN CHOICE (log 16; unsafe): `exec` takes
the payload it is given as the next one, also where `IN[di]` is another byte or `di >= LEN` leaves none; `step` hands it
`IN[di]` alone, and only below `LEN`. -/
def execCont (p : Payload) (s : State) : Host.Outcome State Fault Refusal :=
  match refusalByte s with
  | some r => .refused r
  | none => takeCont p s

/-- TERM (`30_encoding.md` R71, `43_decoder.md` R145), in a decode in progress. DESIGN CHOICE (log 16; unsafe): as for CONT,
`exec` takes the payload it is given, also where `IN[di]` is another byte or `di >= LEN` leaves none. -/
def execTerm (p : Payload) (s : State) : Host.Outcome State Fault Refusal :=
  match refusalByte s with
  | some r => .refused r
  | none => takeTerm p s

/-- The end of a decode in progress whose input is used up: `raise Unterminated` (`43_decoder.md` R148, R151). -/
def exhaustInput (s : State) : Host.Outcome State Fault Refusal :=
  match refusalByte s with
  | some r => .refused r
  | none => .next (raiseUnterminated s)

/-! ## The operations -/

/-- The loop of DEC.C (`43_decoder.md` R148): bytes while `di < LEN`, up to the first whose flag is clear; without one,
`raise Unterminated`. The bound is the number of bytes left; `LEN` are enough. -/
def decodeLoop : Nat → State → Host.Outcome State Fault Refusal
  | 0, s => .next (raiseUnterminated s)
  | k + 1, s =>
    if s.dec.di < s.ports.len then
      if contFlag (readInput s s.dec.di) then
        match takeCont (payload (readInput s s.dec.di)) s with
        | .next t => decodeLoop k t
        | .fault r => .fault r
        | .refused r => .refused r
      else takeTerm (payload (readInput s s.dec.di)) s
    else .next (raiseUnterminated s)

/-- The state in which a decode is seeded and has consumed no byte (`43_decoder.md` R148). `none` when the seed spills more
words than `NMAX`. -/
def beginDecode (pv : BitVec 64) (pb : BitVec 7) (s : State) : Option State :=
  match seed s.cfg.width s.cfg.nmax pv pb s.dec with
  | none => none
  | some r => some { s with phase := .decoding, dec := r }

/-- A whole decode from its seed on (`43_decoder.md` R148). -/
def runDecode (pv : BitVec 64) (pb : BitVec 7) (s : State) : Host.Outcome State Fault Refusal :=
  match beginDecode pv pb s with
  | none => .refused .nmaxExceeded
  | some t => decodeLoop t.ports.len t

/-- DEC.C (`43_decoder.md` R148). -/
def execDecC (s : State) : Host.Outcome State Fault Refusal :=
  match refusalDecC s with
  | some r => .refused r
  | none => runDecode s.ports.preValue s.ports.preBits s

/-- DEC (`43_decoder.md` R149): DEC.C with a seed of 0 bits; the `PRE_VALUE` and `PRE_BITS` ports are not read. -/
def execDec (s : State) : Host.Outcome State Fault Refusal :=
  match refusalDec s with
  | some r => .refused r
  | none => runDecode 0 0 s

end Sys2Proof.Machine
end

