-- ==== Sys2Proof/Machine/Tables.lean ====
section
/-! DEFINITION. BitGroupTables: the two constant tables of 14 entries. -/
namespace Sys2Proof.Machine

/-- One entry of a table (`40_bitgroup_tables.md` R90). -/
structure TableEntry where
  /-- The shift amount that puts the half above the remainder. -/
  shift : Nat
  /-- How many 7-bit groups to flush for the half. -/
  groups : Nat
deriving DecidableEq, Repr

/-- The table for `W = 64`, `H = 32` (`40_bitgroup_tables.md` R92). -/
def table64 : Fin 14 → TableEntry
  | 0 => ⟨0, 4⟩
  | 1 => ⟨4, 5⟩
  | 2 => ⟨1, 4⟩
  | 3 => ⟨5, 5⟩
  | 4 => ⟨2, 4⟩
  | 5 => ⟨6, 5⟩
  | 6 => ⟨3, 5⟩
  | 7 => ⟨0, 4⟩
  | 8 => ⟨4, 5⟩
  | 9 => ⟨1, 4⟩
  | 10 => ⟨5, 5⟩
  | 11 => ⟨2, 4⟩
  | 12 => ⟨6, 5⟩
  | 13 => ⟨3, 5⟩

/-- The table for `W = 32`, `H = 16` (`40_bitgroup_tables.md` R93). -/
def table32 : Fin 14 → TableEntry
  | 0 => ⟨0, 2⟩
  | 1 => ⟨2, 2⟩
  | 2 => ⟨4, 2⟩
  | 3 => ⟨6, 3⟩
  | 4 => ⟨1, 2⟩
  | 5 => ⟨3, 2⟩
  | 6 => ⟨5, 3⟩
  | 7 => ⟨0, 2⟩
  | 8 => ⟨2, 2⟩
  | 9 => ⟨4, 2⟩
  | 10 => ⟨6, 3⟩
  | 11 => ⟨1, 2⟩
  | 12 => ⟨3, 2⟩
  | 13 => ⟨5, 3⟩

/-- The table `T` of a build: selected by `W`, once per build (`40_bitgroup_tables.md` R90, R97). -/
def bitGroupTable (w : Width) : Fin 14 → TableEntry :=
  match w with
  | .w32 => table32
  | .w64 => table64

end Sys2Proof.Machine
end

