-- ==== Sys2Proof/Machine/Encoder.lean ====
section
/-! DEFINITION. ENC.U64 and ENC.BIG (`42_encoder.md`). -/
namespace Sys2Proof.Machine

/-- Where an encode stands: going on, or ended by `raise InsufficientCapacity` (`60_exceptions.md` R171); in both cases with
the Encoder's registers and the output buffer as written so far. -/
inductive Emission where
  | going (r : EncRegs) (out : Memory)
  | raised (r : EncRegs) (out : Memory)
deriving DecidableEq, Repr

/-- Goes on with the next micro-steps, unless the error was raised. -/
def andThen (e : Emission) (f : EncRegs → Memory → Emission) : Emission :=
  match e with
  | .going r out => f r out
  | .raised r out => .raised r out

/-- `emit(b)`, the only way the encoder writes (`42_encoder.md` R111): never at an offset `>= CAP`. -/
def emit (cap : Nat) (b : Byte) (r : EncRegs) (out : Memory) : Emission :=
  if cap ≤ r.epos then .raised r out else .going { r with epos := r.epos + 1 } (writeOutput out r.epos b)

/-- How an operation ends that stands at an emission: success (`42_encoder.md` R119) or the one error (R121). -/
def finishEncode (s : State) (e : Emission) : State :=
  match e with
  | .going r out => doneEncode s r out
  | .raised r out => raiseInsufficientCapacity s r out

/-! ## The fixed-width path -/

/-- The loop of ENC.U64 (`42_encoder.md` R112): emit the low 7 bits with the flag while the rest is not zero. The bound is
the number of iterations left; 10 are enough for 64 bits. -/
def encodeU64Loop (cap : Nat) : Nat → EncRegs → Memory → Emission
  | 0, r, out => .going r out
  | k + 1, r, out =>
    andThen
      (emit cap (wireByte (decide (r.ev >>> 7 ≠ 0)) (lowGroup r.ev)) { r with ev := r.ev >>> 7 } out)
      fun r out => if r.ev = 0 then .going r out else encodeU64Loop cap k r out

/-- The Encoder's registers at the start of ENC.U64 (`42_encoder.md` R112). -/
def startEncodeU64 (v : BitVec 64) (r : EncRegs) : EncRegs := { r with ev := v, epos := 0 }

/-- ENC.U64 (`42_encoder.md` R112). -/
def execEncU64 (s : State) : Host.Outcome State Fault Refusal :=
  match refusalEncU64 s with
  | some r => .refused r
  | none =>
    .next (finishEncode s (encodeU64Loop s.ports.cap 10 (startEncodeU64 s.ports.val64 s.enc) s.out))

/-! ## The word-array path -/

/-- Shift-and-OR of a half into the accumulator at the table's shift; the table's group count is what is left to flush
(`42_encoder.md` R114; `ehalf`, `eg` and `ewi` as log 14 says). -/
def placeHalf (w : Width) (half : Half) (h : Word) (r : EncRegs) : EncRegs :=
  { r with
    eacc := truncWord w (r.eacc ||| (h <<< (bitGroupTable w r.estep).shift))
    ehalf := half
    eg := BitVec.ofNat 3 (bitGroupTable w r.estep).groups }

/-- Flushes one group with the continuation flag (`42_encoder.md` R114). -/
def flushGroup (cap : Nat) (r : EncRegs) (out : Memory) : Emission :=
  andThen (emit cap (wireByte true (lowGroup r.eacc)) r out) fun r out =>
    .going { r with eacc := r.eacc >>> 7, eg := r.eg - 1 } out

/-- Flushes a number of groups, each with the continuation flag (`42_encoder.md` R114). -/
def flushGroups (cap : Nat) : Nat → EncRegs → Memory → Emission
  | 0, r, out => .going r out
  | k + 1, r, out => andThen (flushGroup cap r out) (flushGroups cap k)

/-- `half_step(h)` (`42_encoder.md` R114): place the half, flush the table's group count, advance the step by 1 mod 14. -/
def halfStep (w : Width) (cap : Nat) (half : Half) (h : Word) (r : EncRegs) (out : Memory) : Emission :=
  andThen (flushGroups cap (bitGroupTable w r.estep).groups (placeHalf w half h r) out) fun r out =>
    .going { r with estep := r.estep + 1 } out

/-- The final flush (`42_encoder.md` R116): groups until the accumulator is zero, the last without the flag. The bound is
the number of iterations left; 10 are enough for a `W`-bit accumulator. -/
def finalFlush (cap : Nat) : Nat → EncRegs → Memory → Emission
  | 0, r, out => .going r out
  | k + 1, r, out =>
    andThen
      (emit cap (wireByte (decide (r.eacc >>> 7 ≠ 0)) (lowGroup r.eacc)) { r with eacc := r.eacc >>> 7 } out)
      fun r out => if r.eacc = 0 then .going r out else finalFlush cap k r out

/-- A word that is not the last (`42_encoder.md` R117): both halves, then the next word's index. -/
def innerWord (w : Width) (cap : Nat) (v : Word) (r : EncRegs) (out : Memory) : Emission :=
  andThen (halfStep w cap .low (lowHalf w v) r out) fun r out =>
    andThen (halfStep w cap .high (highHalf w v) r out) fun r out => .going { r with ewi := r.ewi + 1 } out

/-- The last word (`42_encoder.md` R115, R117): the low half; when the high half is not zero the table's groups are flushed
and the high half is placed; then the final flush. -/
def lastWord (w : Width) (cap : Nat) (v : Word) (r : EncRegs) (out : Memory) : Emission :=
  if highHalf w v = 0 then finalFlush cap 10 (placeHalf w .low (lowHalf w v) r) out
  else
    andThen (halfStep w cap .low (lowHalf w v) r out) fun r out =>
      finalFlush cap 10 (placeHalf w .high (highHalf w v) r) out

/-- The words of a value, in ascending order (`42_encoder.md` R117). -/
def encodeWords (w : Width) (cap : Nat) : List Word → EncRegs → Memory → Emission
  | [], r, out => .going r out
  | [v], r, out => lastWord w cap v r out
  | v :: v' :: rest, r, out => andThen (innerWord w cap v r out) (encodeWords w cap (v' :: rest))

/-- The Encoder's registers at the start of ENC.BIG (`10_state.md` R42, table; `42_encoder.md` R117). -/
def startEncodeBig (w : Width) (r : EncRegs) : EncRegs :=
  { r with
    eacc := 0
    estep := 0
    ewi := 0
    ehalf := .low
    eg := BitVec.ofNat 3 (bitGroupTable w 0).groups
    epos := 0 }

/-- ENC.BIG (`42_encoder.md` R117); both forms of zero emit one zero byte directly (R113). -/
def execEncBig (s : State) : Host.Outcome State Fault Refusal :=
  match refusalEncBig s with
  | some r => .refused r
  | none =>
    let r := startEncodeBig s.cfg.width s.enc
    .next
      (finishEncode s
        (if isZeroValue s then emit s.ports.cap 0x00 r s.out
          else encodeWords s.cfg.width s.ports.cap (valueWords s) r s.out))

end Sys2Proof.Machine
end

