-- ==== Sys2Proof/Machine/Reserved.lean ====
section
/-! DEFINITION. The reserved operation codes (`30_encoding.md` R79). -/
namespace Sys2Proof.Machine

/-- The reserved codes select no operation: `refuse BadOp` (`30_encoding.md` R79, `60_exceptions.md` R178), before any other
check (R179). -/
def refuseBadOp (_s : State) : Host.Outcome State Fault Refusal := .refused .badOp

/-- RESERVED.6, `OP = 0b110` (`30_encoding.md` R79). -/
def execReserved6 (s : State) : Host.Outcome State Fault Refusal := refuseBadOp s

/-- RESERVED.7, `OP = 0b111` (`30_encoding.md` R79). -/
def execReserved7 (s : State) : Host.Outcome State Fault Refusal := refuseBadOp s

end Sys2Proof.Machine
end

