-- ==== Sys2Proof/Machine/SizeEstimator.lean ====
section
/-! DEFINITION. SIZE.U64 and SIZE.BIG (`41_size_estimator.md`). -/
namespace Sys2Proof.Machine

/-- The loop of SIZE.U64 (`41_size_estimator.md` R100): count, shift right by 7, until the remaining value is zero. The
bound is the number of iterations left; 10 are enough for 64 bits (`70_reset_and_hazards.md` R198). -/
def sizeLoop : Nat → SizeRegs → SizeRegs
  | 0, r => r
  | k + 1, r => if r.sv >>> 7 = 0 then ⟨r.sv >>> 7, r.sn + 1⟩ else sizeLoop k ⟨r.sv >>> 7, r.sn + 1⟩

/-- SIZE.U64 (`41_size_estimator.md` R100). No error and no refusal. -/
def execSizeU64 (s : State) : Host.Outcome State Fault Refusal :=
  let r := sizeLoop 10 ⟨s.ports.val64, 0⟩
  .next (doneSize s r r.sn)

/-- The count of SIZE.BIG: 1 for the two forms of zero, else `ceil((bitlen(top) + W * (n - 1)) / 7)`
(`41_size_estimator.md` R101, `90_conflicts.md` C1). -/
def sizeBigCount (s : State) : Nat :=
  if isZeroValue s then 1
  else
    groupsOfBits
      (bitLength (readValueWord s (s.ports.nwords - 1)).toNat + s.cfg.width.bits * (s.ports.nwords - 1))

/-- SIZE.BIG (`41_size_estimator.md` R101). It uses no register (`10_state.md` R27). -/
def execSizeBig (s : State) : Host.Outcome State Fault Refusal :=
  match refusalSizeBig s with
  | some r => .refused r
  | none => .next (doneSize s s.size (sizeBigCount s))

end Sys2Proof.Machine
end

