-- ==== Sys2Proof/Syntax.lean ====
section
/-! DEFINITION. The instructions: one constructor per row of spec/opcode_table.json. -/
namespace Sys2Proof

/-- The ten rows of the opcode table. The eight codes of the `OP` port carry no operand fields, their operands are on
ports (`30_encoding.md` R78, R80); the two wire classes carry their 7-bit payload group (R70, R71). -/
inductive Instr where
  /-- SIZE.U64, `OP = 0b000` (R78, R100). -/
  | sizeU64
  /-- SIZE.BIG, `OP = 0b001` (R78, R101). -/
  | sizeBig
  /-- ENC.U64, `OP = 0b010` (R78, R112). -/
  | encU64
  /-- ENC.BIG, `OP = 0b011` (R78, R117). -/
  | encBig
  /-- DEC, `OP = 0b100` (R78, R149). -/
  | dec
  /-- DEC.C, `OP = 0b101` (R78, R148). -/
  | decC
  /-- RESERVED.6, `OP = 0b110`: selects no operation (R79). -/
  | reserved6
  /-- RESERVED.7, `OP = 0b111`: selects no operation (R79). -/
  | reserved7
  /-- CONT, wire byte `1ppppppp`: a payload group with more bytes to follow (R71, R144). -/
  | cont (p : Payload)
  /-- TERM, wire byte `0ppppppp`: the last payload group (R71, R145). -/
  | term (p : Payload)
deriving DecidableEq, Repr

/-- The two encodings of the hardware (`30_encoding.md`): a code on the `OP` port, a byte of the wire format. -/
inductive Format where
  | cmd
  | wire
deriving DecidableEq, Repr

/-- The format an instruction is encoded in (the table's "format"). -/
def Instr.format : Instr → Format
  | .sizeU64 => .cmd
  | .sizeBig => .cmd
  | .encU64 => .cmd
  | .encBig => .cmd
  | .dec => .cmd
  | .decC => .cmd
  | .reserved6 => .cmd
  | .reserved7 => .cmd
  | .cont _ => .wire
  | .term _ => .wire

end Sys2Proof
end

