-- ==== Sys2Proof/Machine/Dispatch.lean ====
section
/-! DEFINITION. One arm per instruction. -/
namespace Sys2Proof.Machine

/-- What an instruction does in a state. DESIGN CHOICE (log 17; unsafe): the spec has one operation at a time
(`00_scope.md` R11) and does not say what an operation does that is given while a decode is in progress; it runs as in an
idle block, and the decode is dropped. `step` hands wire bytes alone to a decode in progress. -/
def exec (i : Instr) (s : State) : Host.Outcome State Fault Refusal :=
  match i with
  | .sizeU64 => Sys2Proof.Machine.execSizeU64 s
  | .sizeBig => Sys2Proof.Machine.execSizeBig s
  | .encU64 => Sys2Proof.Machine.execEncU64 s
  | .encBig => Sys2Proof.Machine.execEncBig s
  | .dec => Sys2Proof.Machine.execDec s
  | .decC => Sys2Proof.Machine.execDecC s
  | .reserved6 => Sys2Proof.Machine.execReserved6 s
  | .reserved7 => Sys2Proof.Machine.execReserved7 s
  | .cont p => Sys2Proof.Machine.execCont p s
  | .term p => Sys2Proof.Machine.execTerm p s

end Sys2Proof.Machine
end

