-- ==== Sys2Proof/WellFormed.lean ====
section
/-! DEFINITION. Which instructions are well-formed. -/
namespace Sys2Proof

/-- Well-formed: an instruction that selects an operation or is a wire byte. The reserved codes "select no operation"
(`30_encoding.md` R79); every payload is legal, for "there is no illegal byte value" (R71). -/
def Instr.wellFormed : Instr → Bool
  | .sizeU64 => true
  | .sizeBig => true
  | .encU64 => true
  | .encBig => true
  | .dec => true
  | .decC => true
  | .reserved6 => false
  | .reserved7 => false
  | .cont _ => true
  | .term _ => true

end Sys2Proof
end

