-- ==== Sys2Proof/Decode.lean ====
section
/-! DEFINITION. Decoding of the `OP` port and of wire bytes, the encoder, and the opcode table's numbering. -/
namespace Sys2Proof

/-- Why bytes hold no instruction. -/
inductive DecodeError where
  /-- No byte is left to decode. -/
  | noByte
  /-- A command byte with a bit above bit 2 set: the `OP` port is 3 bits wide (`30_encoding.md` R78). -/
  | opTooWide
deriving DecidableEq, Repr

/-- The operation the `OP` port selects (`30_encoding.md` R78, R79). Every code has its row. -/
def decodeOp (op : BitVec 3) : Instr :=
  match op.toNat with
  | 0 => .sizeU64
  | 1 => .sizeBig
  | 2 => .encU64
  | 3 => .encBig
  | 4 => .dec
  | 5 => .decC
  | 6 => .reserved6
  | _ => .reserved7

/-- The class and payload of a wire byte: bit 7 alone tells CONT from TERM, bits 6:0 are the payload
(`30_encoding.md` R70, R71). -/
def decodeWire (b : Byte) : Instr :=
  if b.getLsbD 7 then .cont (b.extractLsb' 0 7) else .term (b.extractLsb' 0 7)

/-- The decoder on bytes, total and rejecting by name: the instruction and the bytes after it. -/
def decode (f : Format) (bytes : List Byte) : Except DecodeError (Instr × List Byte) :=
  match f, bytes with
  | _, [] => .error .noByte
  | .cmd, b :: rest => if b.toNat < 8 then .ok (decodeOp (b.setWidth 3), rest) else .error .opTooWide
  | .wire, b :: rest => .ok (decodeWire b, rest)

/-- The byte an instruction is encoded in: the `OP` code of `30_encoding.md` R78 in bits 2:0, or the wire byte with
the continuation flag in bit 7 and the payload in bits 6:0 (R70, R71). -/
def encodeByte : Instr → Byte
  | .sizeU64 => 0x00
  | .sizeBig => 0x01
  | .encU64 => 0x02
  | .encBig => 0x03
  | .dec => 0x04
  | .decC => 0x05
  | .reserved6 => 0x06
  | .reserved7 => 0x07
  | .cont p => p.setWidth 8 ||| 0x80
  | .term p => p.setWidth 8

/-- The encoder: every instruction is one byte. -/
def encode (i : Instr) : List Byte := [encodeByte i]

/-- What a decoder's answer reads, without the bytes after it. -/
def decodedInstr (r : Except DecodeError (Instr × List Byte)) : Option Instr :=
  match r with
  | .ok (i, _) => some i
  | .error _ => none

/-- The format a word of the table is read in. The table numbers two spaces that overlap: a 3-bit `OP` code given in a
whole byte and a TERM byte of payload 0 to 7 are the same number. DESIGN CHOICE (log 12; safe): such a number is
the `OP` code; the machine itself never meets the overlap, for `OP` and `IN` are different ports. -/
def tableFormat (nbits w : Nat) : Format :=
  if nbits ≤ 3 ∨ w < 8 then .cmd else .wire

/-- The instruction the decoder reads from a word of spec/opcode_table.json. -/
def decodeTableWord (nbits w : Nat) : Option Instr :=
  if w < 2 ^ nbits ∧ w < 256 then decodedInstr (decode (tableFormat nbits w) [BitVec.ofNat 8 w]) else none

end Sys2Proof
end

