-- ==== Sys2Proof/Machine/Fetch.lean ====
section
/-! DEFINITION. Where the next instruction comes from: the `OP` port of an idle block, the next input byte of a decode in
progress; and how a word is put there. -/
namespace Sys2Proof.Machine

/-- The instruction the next step runs. An idle block samples `OP` (`10_state.md` R22, `30_encoding.md` R78); a decode in
progress reads `IN[di]` (`43_decoder.md` R148), and there is none when the input is exhausted. The block has no program
counter and fetches from no memory (`10_state.md` R38; log 3). -/
def fetch (s : State) : Option Instr :=
  match s.phase with
  | .idle => decodedInstr (decode .cmd [s.ports.op.setWidth 8])
  | .decoding =>
    if s.dec.di < s.ports.len then decodedInstr (decode .wire [readInput s s.dec.di]) else none

/-- An idle block with a code on its `OP` port. -/
def placeCommand (s : State) (op : BitVec 3) : State :=
  { s with phase := .idle, ports := { s.ports with op := op } }

/-- A decode in progress, seeded with no bits, whose whole input is one byte (log 10). -/
def placeWireByte (s : State) (b : Byte) : State :=
  { s with
    phase := .decoding
    ports := { s.ports with len := 1 }
    inp := writeCell s.inp 0 b
    inSize := max s.inSize 1
    dec := { s.dec with dpv := 0, drem := 0, dacc := 0, doff := 0, dws := [], dnw := 0, di := 0 } }

/-- Puts a word of the opcode table where the next step fetches its instruction. -/
def placeTableWord (s : State) (nbits w : Nat) : State :=
  match tableFormat nbits w with
  | .cmd => placeCommand s (BitVec.ofNat 3 w)
  | .wire => placeWireByte s (BitVec.ofNat 8 w)

end Sys2Proof.Machine
end

