-- ==== Sys2Proof/Machine/Step.lean ====
section
/-! DEFINITION. One step of the block, and placing an instruction for it. -/
namespace Sys2Proof.Machine

/-- One step: the instruction the block fetches, else (a decode whose input is exhausted without a terminator) the
Unterminated error (`43_decoder.md` R148, R151). -/
def step (s : State) : Host.Outcome State Fault Refusal :=
  match fetch s with
  | some i => exec i s
  | none => exhaustInput s

/-- The state with a word of the opcode table where the next step fetches (log 10). -/
def State.withFetchWord (s : State) (nbits w : Nat) : State := placeTableWord s nbits w

end Sys2Proof.Machine
end

