-- ==== Sys2Proof/Safety.lean ====
section
/-! DEFINITION. The terms statements are made in: Values and their canonical form, requests, what a byte stream says, and
the invariant of the block. Nothing here is part of the machine. -/
namespace Sys2Proof.Machine

/-! ## Values and their canonical encoded form -/

/-- The Value of the word sequence on `VW` (`20_memory.md` R52). -/
def bigValue (s : State) : Nat :=
  ∑ i ∈ Finset.range s.ports.nwords, (readValueWord s i).toNat * 2 ^ (s.cfg.width.bits * i)

/-- `max(1, ceil(bitlen(V) / 7))`: the length of the canonical form of `V` (`41_size_estimator.md` R100,
`42_encoder.md` R124). -/
def canonicalLength (v : Nat) : Nat := max 1 (groupsOfBits (bitLength v))

/-- Byte `i` of the canonical form of `V`: payload `V[7i+6 : 7i]`, continuation flag on every byte but the last
(`42_encoder.md` R118, R124). -/
def canonicalByte (v i : Nat) : Byte :=
  BitVec.ofNat 8 (v / 2 ^ (7 * i) % 128 + if i + 1 < canonicalLength v then 128 else 0)

/-- `n` words are not more than the build holds (`00_scope.md` R15). -/
def FitsNmax (s : State) (n : Nat) : Prop := ∀ k, s.cfg.nmax = some k → n ≤ k

/-- The words on `VW` are a Value: the highest of two or more is not zero (`30_encoding.md` R80). -/
def NormalForm (s : State) : Prop :=
  2 ≤ s.ports.nwords → readValueWord s (s.ports.nwords - 1) ≠ 0

/-- The caller owns an output buffer of `CAP` bytes, and the operation's buffers are its own
(`70_reset_and_hazards.md` R195). -/
def OutputOwned (s : State) : Prop := s.ports.cap ≤ s.outSize ∧ s.contended = false

/-- The caller owns `LEN` bytes of input, and the operation's buffers are its own (`70_reset_and_hazards.md` R195). -/
def InputOwned (s : State) : Prop := s.ports.len ≤ s.inSize ∧ s.contended = false

/-- `i` is an encode of the Value `v` that is not refused (`60_exceptions.md` R178). -/
def EncodeRequest (i : Instr) (s : State) (v : Nat) : Prop :=
  OutputOwned s ∧
    ((i = .encU64 ∧ v = s.ports.val64.toNat) ∨
      (i = .encBig ∧ v = bigValue s ∧ NormalForm s ∧ FitsNmax s s.ports.nwords))

/-! ## What a byte stream says -/

/-- `i` is a decode with a seed of `n` bits whose pre-value is `pv`, whose operands are in range
(`43_decoder.md` R141, R149; `60_exceptions.md` R178). -/
def DecodeRequest (i : Instr) (s : State) (pv n : Nat) : Prop :=
  InputOwned s ∧
    ((i = .dec ∧ pv = 0 ∧ n = 0) ∨
      (i = .decC ∧ pv = s.ports.preValue.toNat ∧ n = s.ports.preBits.toNat ∧ n ≤ 64))

/-- `IN[k]` is the first byte of the input with bit 7 clear (`30_encoding.md` R74). -/
def TerminatorAt (s : State) (k : Nat) : Prop :=
  k < s.ports.len ∧ (readInput s k).toNat < 128 ∧ ∀ j < k, 128 ≤ (readInput s j).toNat

/-- No byte of `IN[0 .. LEN-1]` has bit 7 clear (`60_exceptions.md` R172). -/
def NoTerminator (s : State) : Prop := ∀ j < s.ports.len, 128 ≤ (readInput s j).toNat

/-- The value of a seed of `n` bits and the first `k` bytes of input (`43_decoder.md` R153, `30_encoding.md` R73). -/
def streamValue (s : State) (pv n k : Nat) : Nat :=
  pv % 2 ^ n + ∑ i ∈ Finset.range k, (readInput s i).toNat % 128 * 2 ^ (n + 7 * i)

/-- The number of words a terminated decode of `b` bits with value `v` has: those closed out at boundaries, and the
trailing accumulator when it is not zero (`43_decoder.md` R155). -/
def wordsOfStream (w : Width) (b v : Nat) : Nat :=
  b / w.bits + if v / 2 ^ (w.bits * (b / w.bits)) = 0 then 0 else 1

/-- The number a successful decode delivers (`43_decoder.md` R153). -/
def resultValue (t : State) : Nat :=
  match t.res.kind with
  | .u64 => t.res.res64.toNat
  | .big => ∑ i ∈ Finset.range t.res.resNW, (readCell t.res.rw i).toNat * 2 ^ (t.cfg.width.bits * i)

/-! ## The per-byte step on numbers (`43_decoder.md` R144, R145) -/

/-- `dacc` after a byte with payload `p`. -/
def accAfter (w : Width) (acc off p : Nat) : Nat :=
  if off + 7 < w.bits then (acc ||| (p <<< off)) % 2 ^ w.bits else p >>> (7 - (off + 7 - w.bits))

/-- `doff` after a byte. -/
def offAfter (w : Width) (off : Nat) : Nat :=
  if off + 7 < w.bits then off + 7 else off + 7 - w.bits

/-- `dws` after a byte with payload `p`. -/
def wordsAfter (w : Width) (ws : List Nat) (acc off p : Nat) : List Nat :=
  if off + 7 < w.bits then ws else ws ++ [(acc ||| (p <<< off)) % 2 ^ w.bits]

/-- The words after `terminate`: a trailing accumulator that is not zero is one more. -/
def wordsAtEnd (ws : List Nat) (acc : Nat) : List Nat := if acc = 0 then ws else ws ++ [acc]

/-- The word sequence of a decode in progress, as numbers. -/
def wordNumbers (r : DecRegs) : List Nat := r.dws.map BitVec.toNat

/-- `KIND`, `RES64`, `RES_NW` and `RW` are what `43_decoder.md` R146 and R147 deliver for a word sequence. -/
def Delivers (t : State) (ws : List Nat) : Prop :=
  match t.cfg.width, ws with
  | .w64, [] => t.res.kind = .u64 ∧ t.res.res64.toNat = 0
  | .w64, [a] => t.res.kind = .u64 ∧ t.res.res64.toNat = a
  | .w32, [] => t.res.kind = .u64 ∧ t.res.res64.toNat = 0
  | .w32, [a] => t.res.kind = .u64 ∧ t.res.res64.toNat = a
  | .w32, [a, b] => t.res.kind = .u64 ∧ t.res.res64.toNat = ((b <<< 32) ||| a)
  | _, ws => t.res.kind = .big ∧ t.res.resNW = ws.length ∧
      ∀ i, i < ws.length → (readCell t.res.rw i).toNat = ws.getD i 0

/-! ## The invariant -/

/-- What every step keeps: the data spaces are canonical, every `W`-bit register holds a `W`-bit value, the counters are
in the ranges `10_state.md` gives them, `dnw` is the length of `dws`, and a decode in progress holds exactly the bits
below its bit offset and has not passed its input. -/
structure Inv (s : State) : Prop where
  vwCanonical : Memory.wf s.vw = true
  outCanonical : Memory.wf s.out = true
  inpCanonical : Memory.wf s.inp = true
  rwCanonical : Memory.wf s.res.rw = true
  rwWords : ∀ i, (readCell s.res.rw i).toNat < 2 ^ s.cfg.width.bits
  snRange : s.size.sn ≤ 10
  egRange : s.enc.eg.toNat ≤ 5
  eaccWord : s.enc.eacc.toNat < 2 ^ s.cfg.width.bits
  daccWord : s.dec.dacc.toNat < 2 ^ s.cfg.width.bits
  dwsWords : ∀ v ∈ s.dec.dws, v.toNat < 2 ^ s.cfg.width.bits
  dnwLength : s.dec.dnw = s.dec.dws.length
  dwsNmax : FitsNmax s s.dec.dws.length
  doffRange : s.phase = .decoding → s.dec.doff.toNat < s.cfg.width.bits
  daccBelow : s.phase = .decoding → s.dec.dacc.toNat < 2 ^ s.dec.doff.toNat
  diRange : s.phase = .decoding → s.dec.di ≤ s.ports.len
  lenOwned : s.phase = .decoding → s.ports.len ≤ s.inSize

/-! ## Comparing states -/

/-- Two states with the same request: build, operand ports and data spaces agree. Nothing is said of working registers,
result ports, phase and the model's counter of free values. -/
def SameRequest (s t : State) : Prop :=
  s.cfg = t.cfg ∧ s.ports = t.ports ∧ s.vw = t.vw ∧ s.out = t.out ∧ s.outSize = t.outSize ∧ s.inp = t.inp ∧
    s.inSize = t.inSize ∧ s.contended = t.contended

/-- The result of two decodes is the same: `KIND`, and the ports of the kind delivered (`43_decoder.md` R150). -/
def SameDecoded (s t : State) : Prop :=
  s.res.kind = t.res.kind ∧ (s.res.kind = .u64 → s.res.res64 = t.res.res64) ∧
    (s.res.kind = .big →
      s.res.resNW = t.res.resNW ∧ ∀ i < s.res.resNW, readCell s.res.rw i = readCell t.res.rw i)

/-- What the host sees of an operation that ended: the output buffer and the result ports that have meaning after it
(`00_scope.md` R9, `10_state.md` R23, R24, `70_reset_and_hazards.md` R196). `COUNT` after a failing encode, the result of a
failing decode, the ports of the kind not delivered and the ports the operation does not write have none; nor has the
buffer of a failing encode whose written prefix is a free choice (`42_encoder.md` R122). -/
def SameResults (i : Instr) (s t : State) : Prop :=
  match i with
  | .encU64 | .encBig =>
    s.res.ok = t.res.ok ∧ (s.res.ok = true → s.res.count = t.res.count) ∧
      (s.res.ok = true ∨ s.cfg.failPrefix ≠ .any → s.out = t.out)
  | .dec | .decC =>
    s.out = t.out ∧ s.res.ok = t.res.ok ∧ s.res.count = t.res.count ∧ (s.res.ok = true → SameDecoded s t)
  | .sizeU64 | .sizeBig => s.out = t.out ∧ s.res.count = t.res.count
  | .reserved6 | .reserved7 | .cont _ | .term _ => s.out = t.out

/-- Two outcomes are the same to the host: both refused for the same reason, or both ended with the same results. -/
def SameOutcome (i : Instr) (a b : Host.Outcome State Fault Refusal) : Prop :=
  match a, b with
  | .next s, .next t => SameResults i s t
  | .refused r, .refused r' => r = r'
  | _, _ => False

/-- Everything but the registers, ports and buffer an operation may write agrees: the build, the operand ports, the
read-only data spaces, what the caller owns. -/
def SameInputs (s t : State) : Prop :=
  s.cfg = t.cfg ∧ s.ports = t.ports ∧ s.vw = t.vw ∧ s.inp = t.inp ∧ s.outSize = t.outSize ∧ s.inSize = t.inSize ∧
    s.contended = t.contended

end Sys2Proof.Machine
end

