-- ==== Sys2Proof/Certificates/Slice0/Obligations.lean ====
section
/-! DEFINITION. The statements about the model, each from the spec's numbered rules. -/
open Sys2Proof Sys2Proof.Machine

/-! ## Encodings -/

/-- R78, R79 (decisions of the spec, D2): the eight codes of the `OP` port, and four wire bytes written out from R70. -/
def Obligations.OperationCodesSelectTheirOperations : Prop :=
  decodeOp 0b000 = .sizeU64 ∧ decodeOp 0b001 = .sizeBig ∧ decodeOp 0b010 = .encU64 ∧ decodeOp 0b011 = .encBig ∧
    decodeOp 0b100 = .dec ∧ decodeOp 0b101 = .decC ∧ decodeOp 0b110 = .reserved6 ∧ decodeOp 0b111 = .reserved7 ∧
    decodeWire 0b10000101 = .cont 0b0000101 ∧ decodeWire 0b11111111 = .cont 0b1111111 ∧
    decodeWire 0b00000101 = .term 0b0000101 ∧ decodeWire 0b01111111 = .term 0b1111111

/-- R71: bit 7 alone tells the two classes apart, and every byte value belongs to exactly one. -/
def Obligations.EveryByteIsInExactlyOneWireClass : Prop :=
  ∀ b : Byte,
    (b &&& 0x80 = 0x80 ↔ 0x80 ≤ b.toNat) ∧ (b &&& 0x80 = 0 ↔ b.toNat < 0x80) ∧
      (0x80 ≤ b.toNat → decodeWire b = .cont (BitVec.ofNat 7 (b.toNat % 128))) ∧
      (b.toNat < 0x80 → decodeWire b = .term (BitVec.ofNat 7 (b.toNat % 128)))

/-- Decoding undoes encoding for every instruction, whatever bytes follow; encoding undoes decoding for every wire byte
and every `OP` code. -/
def Obligations.DecodingUndoesEncodingAndBack : Prop :=
  (∀ (i : Instr) (rest : List Byte), decode i.format (encode i ++ rest) = .ok (i, rest)) ∧
    (∀ b : Byte, encode (decodeWire b) = [b]) ∧
    (∀ op : BitVec 3, encode (decodeOp op) = [op.setWidth 8]) ∧
    (∀ (f : Format) (bytes rest : List Byte) (i : Instr),
      decode f bytes = .ok (i, rest) → i.format = f ∧ bytes = encode i ++ rest)

/-! ## A step -/

/-- An idle block runs the operation that its `OP` port decodes to (R22, R78, decisions of the spec, D1 and D2; that a
step runs the whole operation is the model's choice, log 3). -/
def Obligations.IdleStepRunsTheOperationOnOp : Prop :=
  ∀ (s : State) (i : Instr) (rest : List Byte),
    s.phase = .idle → decode .cmd [s.ports.op.setWidth 8] = .ok (i, rest) → step s = exec i s

/-- A decode in progress runs the next input byte, while there is one (R148). That this is a step of its own is the
model's choice (log 3). -/
def Obligations.DecodingStepRunsTheNextInputByte : Prop :=
  ∀ (s : State) (i : Instr) (rest : List Byte),
    s.phase = .decoding → s.dec.di < s.ports.len → decode .wire [readInput s s.dec.di] = .ok (i, rest) →
      step s = exec i s

/-- A decode in progress whose input is used up and whose buffers are its own raises Unterminated (R148, R151). That
this is a step of its own is the model's choice (log 3). -/
def Obligations.DecodingStepWithoutInputIsUnterminated : Prop :=
  ∀ s : State, s.phase = .decoding → InputOwned s → s.ports.len ≤ s.dec.di →
    ∃ t, step s = .next t ∧ t.res.ok = false ∧ t.res.count = 0 ∧ t.phase = .idle ∧ t.out = s.out ∧ SameInputs s t

/-! ## SizeEstimator -/

/-- R100 (whose result line the spec marks [derived]): SIZE.U64 always completes; `COUNT` is `max(1, ceil(bitlen(VAL64)
/ 7))`, from 1 to 10; `sv` ends at 0 and `sn` at the count; the caller's data and the other components' registers are
unchanged. Nothing is said of the result ports it does not write (R23, R24). -/
def Obligations.SizeU64CountsTheGroups : Prop :=
  ∀ s : State, ∃ t, exec .sizeU64 s = .next t ∧ t.phase = .idle ∧
    t.res.count = canonicalLength s.ports.val64.toNat ∧ 1 ≤ t.res.count ∧ t.res.count ≤ 10 ∧
    t.size = { sv := 0, sn := t.res.count } ∧ SameInputs s t ∧ t.out = s.out ∧ t.enc = s.enc ∧ t.dec = s.dec

/-- R101; R178 (a decision of the spec, D8): SIZE.BIG of a Value that nothing else touches completes, `COUNT` is `max(1,
ceil(bitlen(V) / 7))`, and the caller's data and every working register are unchanged; of two or more words with a zero
highest word it is refused. Nothing is said of the result ports it does not write (R23, R24). -/
def Obligations.SizeBigCountsTheGroups : Prop :=
  ∀ s : State, FitsNmax s s.ports.nwords → s.contended = false →
    (NormalForm s → ∃ t, exec .sizeBig s = .next t ∧ t.phase = .idle ∧ t.res.count = canonicalLength (bigValue s) ∧
      SameInputs s t ∧ t.out = s.out ∧ t.size = s.size ∧ t.enc = s.enc ∧ t.dec = s.dec) ∧
    (¬ NormalForm s → exec .sizeBig s = .refused .nonNormalValue)

/-- R102 (marked [derived] by the spec): the two paths give the same size for the same value. -/
def Obligations.SizePathsAgree : Prop :=
  ∀ s : State, NormalForm s → FitsNmax s s.ports.nwords → s.contended = false → s.ports.val64.toNat = bigValue s →
    ∃ t u, exec .sizeU64 s = .next t ∧ exec .sizeBig s = .next u ∧ t.res.count = u.res.count

/-- R103, R125: the size of a value is the count of its successful encode, on both paths. -/
def Obligations.SizeIsTheCountOfTheEncode : Prop :=
  ∀ (s t : State) (v : Nat),
    (EncodeRequest .encU64 s v → exec .encU64 s = .next t → t.res.ok = true →
      ∃ u, exec .sizeU64 s = .next u ∧ u.res.count = t.res.count) ∧
    (EncodeRequest .encBig s v → exec .encBig s = .next t → t.res.ok = true →
      ∃ u, exec .sizeBig s = .next u ∧ u.res.count = t.res.count)

/-! ## BitGroupTables -/

/-- R91 to R93 (marked [derived] by the spec): every entry of both tables is what the bit-alignment cycle determines. -/
def Obligations.TableEntriesFollowTheAlignmentCycle : Prop :=
  ∀ (w : Width) (s : Fin 14),
    (bitGroupTable w s).shift = s.val * w.half % 7 ∧
      (bitGroupTable w s).groups = ((bitGroupTable w s).shift + w.half) / 7 ∧
      ((bitGroupTable w s).shift + w.half) % 7 = (bitGroupTable w (s + 1)).shift ∧
      (bitGroupTable w 0).shift = 0

/-- R94, R95 (a) to (d) (marked [derived] by the spec): the period, the sum of the group counts, the ranges, the empty
remainder after step 13. -/
def Obligations.TablePropertiesHold : Prop :=
  ∀ w : Width,
    (∀ s : Fin 14, bitGroupTable w (s + 7) = bitGroupTable w s) ∧
      (∑ s : Fin 14, (bitGroupTable w s).groups) = 2 * w.half ∧
      (∀ s : Fin 14, (bitGroupTable w s).shift ≤ 6) ∧
      (∀ s : Fin 14, w = .w64 → (bitGroupTable w s).groups = 4 ∨ (bitGroupTable w s).groups = 5) ∧
      (∀ s : Fin 14, w = .w32 → (bitGroupTable w s).groups = 2 ∨ (bitGroupTable w s).groups = 3) ∧
      ((bitGroupTable w 13).shift + w.half) % 7 = 0

/-! ## Encoder -/

/-- R119 and R124 (the latter marked [derived] by the spec): an encode that is not refused completes, with `OK = 1`
exactly when `CAP` is at least the canonical length; then `COUNT` is that length, `epos` too, and the bytes from offset
0 on are the canonical form of the Value. -/
def Obligations.EncodeWritesTheCanonicalForm : Prop :=
  ∀ (i : Instr) (s : State) (v : Nat), EncodeRequest i s v →
    ∃ t, exec i s = .next t ∧
      (t.res.ok = true ↔ canonicalLength v ≤ s.ports.cap) ∧
      (canonicalLength v ≤ s.ports.cap →
        t.res.count = canonicalLength v ∧ t.enc.epos = canonicalLength v ∧
          ∀ a < canonicalLength v, readCell t.out a = canonicalByte v a)

/-- R122 (a decision of the spec, D7), R171: an encode into a buffer that is too small ends with `OK = 0`, having
written the first `k` bytes of the canonical form, `k` as `ENC_FAIL_PREFIX` allows, and no other. -/
def Obligations.FailingEncodeLeavesAPrefix : Prop :=
  ∀ (i : Instr) (s : State) (v : Nat), EncodeRequest i s v → s.ports.cap < canonicalLength v →
    ∃ t k, exec i s = .next t ∧ t.res.ok = false ∧ t.phase = .idle ∧ k ≤ s.ports.cap ∧
      (s.cfg.failPrefix = .none → k = 0) ∧ (s.cfg.failPrefix = .full → k = s.ports.cap) ∧
      (∀ a < k, readCell t.out a = canonicalByte v a) ∧ (∀ a, k ≤ a → readCell t.out a = readCell s.out a)

/-- R120, R127: the frame of ENC.U64 and ENC.BIG. Bytes not written keep their contents; the registers of the other
components and everything of the caller's but `OUT` are unchanged. Nothing is said of the result ports they do not write
(R23, R24). -/
def Obligations.EncodeChangesOnlyItsBufferAndPorts : Prop :=
  ∀ (i : Instr) (s t : State), i = .encU64 ∨ i = .encBig → exec i s = .next t →
    SameInputs s t ∧ t.size = s.size ∧ t.dec = s.dec ∧
      (∀ a, s.ports.cap ≤ a → readCell t.out a = readCell s.out a) ∧
      (t.res.ok = true → ∀ a, t.res.count ≤ a → readCell t.out a = readCell s.out a)

/-- R123: the two paths write the same bytes and return the same count for the same value. -/
def Obligations.EncodePathsAgree : Prop :=
  ∀ (s : State) (v : Nat), EncodeRequest .encU64 s v → EncodeRequest .encBig s v → canonicalLength v ≤ s.ports.cap →
    ∃ t u, exec .encU64 s = .next t ∧ exec .encBig s = .next u ∧ t.res.ok = true ∧ u.res.ok = true ∧
      t.res.count = u.res.count ∧ ∀ a, readCell t.out a = readCell u.out a

/-- R118 (marked [derived] by the spec): every byte a successful encode writes but the last has bit 7 set and the last
has it clear; every byte of the prefix a failing encode leaves has bit 7 set, and no other byte changes. -/
def Obligations.EncodeSetsTheFlagOnAllButTheLastByte : Prop :=
  ∀ (i : Instr) (s t : State) (v : Nat), EncodeRequest i s v → exec i s = .next t →
    (t.res.ok = true →
      0 < t.res.count ∧ (∀ a, a + 1 < t.res.count → 128 ≤ (readCell t.out a).toNat) ∧
        (readCell t.out (t.res.count - 1)).toNat < 128) ∧
    (t.res.ok = false → ∃ k, k ≤ s.ports.cap ∧ (∀ a < k, 128 ≤ (readCell t.out a).toNat) ∧
      ∀ a, k ≤ a → readCell t.out a = readCell s.out a)

/-- R96 (marked [derived] by the spec), R114: a half step on an accumulator below `2^shift` loses no bit: what it held
and the half above it are the groups written, each with the continuation flag, and the new accumulator, which is below
the next step's `2^shift`. -/
def Obligations.HalfStepLosesNoBit : Prop :=
  ∀ (w : Width) (cap : Nat) (half : Half) (h : Word) (r : EncRegs) (out : Memory),
    r.eacc.toNat < 2 ^ (bitGroupTable w r.estep).shift → h.toNat < 2 ^ w.half →
    r.epos + (bitGroupTable w r.estep).groups ≤ cap →
    ∃ r' out', halfStep w cap half h r out = .going r' out' ∧
      r'.estep = r.estep + 1 ∧ r'.epos = r.epos + (bitGroupTable w r.estep).groups ∧
      r'.eacc.toNat < 2 ^ (bitGroupTable w r'.estep).shift ∧
      (∀ j < (bitGroupTable w r.estep).groups, 128 ≤ (readCell out' (r.epos + j)).toNat) ∧
      r.eacc.toNat + h.toNat * 2 ^ (bitGroupTable w r.estep).shift =
        (∑ j ∈ Finset.range (bitGroupTable w r.estep).groups,
          (readCell out' (r.epos + j)).toNat % 128 * 2 ^ (7 * j)) +
          r'.eacc.toNat * 2 ^ (7 * (bitGroupTable w r.estep).groups)

/-! ## Decoder -/

/-- R142, R143: seeding masks the pre-value to the bit count, spills every whole word, and leaves the rest in the
accumulator at the bit offset. -/
def Obligations.SeedMasksAndSpills : Prop :=
  ∀ (s : State) (pv : BitVec 64) (pb : BitVec 7), pb.toNat ≤ 64 → FitsNmax s (pb.toNat / s.cfg.width.bits) →
    ∃ t, beginDecode pv pb s = some t ∧ t.phase = .decoding ∧ t.dec.di = 0 ∧
      t.dec.dws.length = pb.toNat / s.cfg.width.bits ∧ t.dec.dnw = t.dec.dws.length ∧
      (∀ j < pb.toNat / s.cfg.width.bits, (t.dec.dws.getD j 0).toNat =
        pv.toNat % 2 ^ pb.toNat / 2 ^ (s.cfg.width.bits * j) % 2 ^ s.cfg.width.bits) ∧
      t.dec.doff.toNat = pb.toNat % s.cfg.width.bits ∧
      t.dec.dacc.toNat =
        pv.toNat % 2 ^ pb.toNat / 2 ^ (s.cfg.width.bits * (pb.toNat / s.cfg.width.bits))

/-- R144: in a decode in progress with an input byte left and whose buffers are its own CONT completes: the index
advances, the payload is ORed in at the bit offset, a full word is closed out and the overflow bits start the new
accumulator; `dnw` stays the number of words; the other registers of the Decoder are unchanged. -/
def Obligations.ContAccumulatesItsPayload : Prop :=
  ∀ (s : State) (p : Payload), s.phase = .decoding → InputOwned s → s.dec.di < s.ports.len →
    s.dec.doff.toNat < s.cfg.width.bits →
    FitsNmax s
      (wordsAfter s.cfg.width (wordNumbers s.dec) s.dec.dacc.toNat s.dec.doff.toNat p.toNat).length →
    ∃ t, exec (.cont p) s = .next t ∧ t.phase = .decoding ∧ t.dec.di = s.dec.di + 1 ∧
      t.dec.dacc.toNat = accAfter s.cfg.width s.dec.dacc.toNat s.dec.doff.toNat p.toNat ∧
      t.dec.doff.toNat = offAfter s.cfg.width s.dec.doff.toNat ∧
      wordNumbers t.dec = wordsAfter s.cfg.width (wordNumbers s.dec) s.dec.dacc.toNat s.dec.doff.toNat p.toNat ∧
      t.dec.dpv = s.dec.dpv ∧ t.dec.drem = s.dec.drem ∧
      (s.dec.dnw = s.dec.dws.length → t.dec.dnw = t.dec.dws.length)

/-- R145, R146, R147: in a decode in progress with an input byte left and whose buffers are its own TERM completes the
decode: its payload is accumulated, a trailing accumulator that is not zero is one more word, and the words are
delivered in the form their number decides. -/
def Obligations.TermDeliversTheWords : Prop :=
  ∀ (s : State) (p : Payload) (ws : List Nat), Inv s → s.phase = .decoding → InputOwned s → s.dec.di < s.ports.len →
    ws = wordsAtEnd (wordsAfter s.cfg.width (wordNumbers s.dec) s.dec.dacc.toNat s.dec.doff.toNat p.toNat)
      (accAfter s.cfg.width s.dec.dacc.toNat s.dec.doff.toNat p.toNat) →
    FitsNmax s ws.length →
    ∃ t, exec (.term p) s = .next t ∧ t.phase = .idle ∧ t.res.ok = true ∧ t.res.count = s.dec.di + 1 ∧
      t.dec.dnw = ws.length ∧ Delivers t ws

/-- The model's choice (log 16): CONT and TERM take the payload they are given, whatever the input holds and however
long it is, also where no input byte is left; so what ContAccumulatesItsPayload and TermDeliversTheWords state below
`LEN` holds beyond it too. -/
def Obligations.WireBytesDoNotReadTheInput : Prop :=
  ∀ (i : Instr) (s : State) (inp : Memory) (size len : Nat),
    (∃ p, i = .cont p ∨ i = .term p) → InputOwned s → len ≤ size →
    match exec i s with
    | .next t =>
      exec i { s with inp := inp, inSize := size, ports := { s.ports with len := len } } =
        .next { t with inp := inp, inSize := size, ports := { t.ports with len := len } }
    | .refused r =>
      exec i { s with inp := inp, inSize := size, ports := { s.ports with len := len } } = .refused r
    | .fault _ => False

/-- The model's choice (log 8): a wire byte is refused when no decode is in progress. -/
def Obligations.WireByteOutsideADecodeIsRefused : Prop :=
  ∀ (s : State) (p : Payload), s.phase = .idle →
    exec (.cont p) s = .refused .noDecodeInProgress ∧ exec (.term p) s = .refused .noDecodeInProgress

/-- R150 and R153 (the latter marked [derived] by the spec): a decode of a terminated input completes with `OK = 1`;
`COUNT` is the terminator's index plus 1; the number delivered is the seed plus the sum of the groups at their places.
-/
def Obligations.DecodeDeliversTheSumOfItsGroups : Prop :=
  ∀ (i : Instr) (s : State) (pv n k : Nat), DecodeRequest i s pv n → TerminatorAt s k →
    FitsNmax s (wordsOfStream s.cfg.width (n + 7 * (k + 1)) (streamValue s pv n (k + 1))) →
    ∃ t, exec i s = .next t ∧ t.res.ok = true ∧ t.res.count = k + 1 ∧ t.res.count ≤ s.ports.len ∧
      resultValue t = streamValue s pv n (k + 1)

/-- R155 (a decision of the spec, D16): `KIND` is decided by the number of words, and a `BIG` result has that many. -/
def Obligations.KindFollowsTheNumberOfWords : Prop :=
  ∀ (i : Instr) (s t : State) (pv n k : Nat), DecodeRequest i s pv n → TerminatorAt s k → exec i s = .next t →
    (t.res.kind = .u64 ↔
      wordsOfStream s.cfg.width (n + 7 * (k + 1)) (streamValue s pv n (k + 1)) ≤ 64 / s.cfg.width.bits) ∧
    (t.res.kind = .big →
      t.res.resNW = wordsOfStream s.cfg.width (n + 7 * (k + 1)) (streamValue s pv n (k + 1)))

/-- R155 (a), (c), (d) (a decision of the spec, D16): a 64-bit result is below `2^64`; for a canonical unseeded form the
kind is `U64` exactly then; with 128 bits taken in or more (96 on a 32-bit build) it is `BIG`. -/
def Obligations.KindOfCanonicalAndOfLongInput : Prop :=
  ∀ (i : Instr) (s t : State) (pv n k : Nat), DecodeRequest i s pv n → TerminatorAt s k → exec i s = .next t →
    (t.res.kind = .u64 → streamValue s pv n (k + 1) < 2 ^ 64) ∧
    (n = 0 → (k = 0 ∨ readInput s k ≠ 0) → (t.res.kind = .u64 ↔ streamValue s pv n (k + 1) < 2 ^ 64)) ∧
    (128 ≤ n + 7 * (k + 1) → t.res.kind = .big) ∧
    (s.cfg.width = .w32 → 96 ≤ n + 7 * (k + 1) → t.res.kind = .big)

/-- R172, R151: a decode ends with `OK = 0` exactly when no input byte has bit 7 clear; then it completes with `COUNT =
0` and writes no memory. -/
def Obligations.DecodeFailsExactlyWhenUnterminated : Prop :=
  ∀ (i : Instr) (s : State) (pv n : Nat), DecodeRequest i s pv n →
    (∀ t, exec i s = .next t → (t.res.ok = false ↔ NoTerminator s)) ∧
    (NoTerminator s → FitsNmax s ((n + 7 * s.ports.len) / s.cfg.width.bits) →
      ∃ t, exec i s = .next t ∧ t.res.ok = false ∧ t.res.count = 0 ∧ t.phase = .idle ∧ t.out = s.out ∧ SameInputs s t)

/-- R152 (a decision of the spec, D11): empty input is Unterminated whatever the seed is. -/
def Obligations.EmptyInputIsUnterminatedForEverySeed : Prop :=
  ∀ (i : Instr) (s : State) (pv n : Nat), DecodeRequest i s pv n → s.ports.len = 0 →
    FitsNmax s (n / s.cfg.width.bits) → ∃ t, exec i s = .next t ∧ t.res.ok = false ∧ t.res.count = 0

/-- R157: a zero byte at the first position is a terminator that delivers the seed's bits as a 64-bit integer. -/
def Obligations.FirstPositionZeroDeliversTheSeed : Prop :=
  ∀ (i : Instr) (s : State) (pv n : Nat), DecodeRequest i s pv n → 0 < s.ports.len → readInput s 0 = 0 →
    FitsNmax s (wordsOfStream s.cfg.width (n + 7) (pv % 2 ^ n)) →
    ∃ t, exec i s = .next t ∧ t.res.ok = true ∧ t.res.count = 1 ∧ t.res.kind = .u64 ∧
      t.res.res64.toNat = pv % 2 ^ n

/-- R150: what stands in the input after the terminator, and how much of it, has no effect on any result. -/
def Obligations.BytesAfterTheTerminatorDoNotMatter : Prop :=
  ∀ (i : Instr) (s : State) (k len size : Nat) (inp : Memory), i = .dec ∨ i = .decC → InputOwned s → TerminatorAt s k →
    k < len → len ≤ size → (∀ j ≤ k, readCell inp j = readInput s j) →
    SameOutcome i (exec i s) (exec i { s with inp := inp, inSize := size, ports := { s.ports with len := len } })

/-- R178 (a decision of the spec, D8): a decode is refused when it would append word number `NMAX + 1`. -/
def Obligations.DecodeBeyondNmaxIsRefused : Prop :=
  ∀ (i : Instr) (s : State) (pv n m : Nat), DecodeRequest i s pv n → s.cfg.nmax = some m →
    ((∃ k, TerminatorAt s k ∧
        m < wordsOfStream s.cfg.width (n + 7 * (k + 1)) (streamValue s pv n (k + 1))) ∨
      (NoTerminator s ∧ m < (n + 7 * s.ports.len) / s.cfg.width.bits)) →
    exec i s = .refused .nmaxExceeded

/-- R149, R81: DEC is DEC.C with a pre-value and a pre-bit-count of 0; the `PRE_VALUE` and `PRE_BITS` ports are not
read. -/
def Obligations.DecIsDecCWithoutASeed : Prop :=
  ∀ s : State,
    match exec .decC { s with ports := { s.ports with preValue := 0, preBits := 0 } } with
    | .next t => exec .dec s = .next { t with ports := s.ports }
    | .refused r => exec .dec s = .refused r
    | .fault _ => False

/-- R126: decoding the bytes an encode wrote gives back the Value and the count, as a 64-bit integer exactly when it is
below `2^64`, whatever the word widths of the two builds. -/
def Obligations.DecodeUndoesEncode : Prop :=
  ∀ (i : Instr) (s t u : State) (v : Nat), EncodeRequest i s v → exec i s = .next t → t.res.ok = true →
    InputOwned u → t.res.count ≤ u.ports.len → (∀ a < t.res.count, readInput u a = readCell t.out a) →
    FitsNmax u (wordsOfStream u.cfg.width (7 * t.res.count) v) →
    ∃ r, exec .dec u = .next r ∧ r.res.ok = true ∧ r.res.count = t.res.count ∧ resultValue r = v ∧
      (r.res.kind = .u64 ↔ v < 2 ^ 64)

/-- The frame of the decoder: DEC, DEC.C, CONT and TERM change only the Decoder's registers and the result ports, no
memory of the caller's; and CONT, which ends no operation, only the Decoder's registers: the result ports are "written
once at the end of an operation" (R23, a decision of the spec, D1). -/
def Obligations.DecodeChangesOnlyItsRegistersAndPorts : Prop :=
  (∀ (i : Instr) (s t : State), i = .dec ∨ i = .decC ∨ (∃ p, i = .cont p ∨ i = .term p) → exec i s = .next t →
    SameInputs s t ∧ t.out = s.out ∧ t.size = s.size ∧ t.enc = s.enc) ∧
  ∀ (p : Payload) (s t : State), exec (.cont p) s = .next t → t = { s with dec := t.dec }

/-- R148: the whole operation is its seed followed by the steps of its wire bytes (and the error step where the input is
used up): running the machine from the seeded state gives the outcome of DEC.C. -/
def Obligations.DecCIsTheRunOfItsWireBytes : Prop :=
  ∀ (s b : State), DecodeRequest .decC s s.ports.preValue.toNat s.ports.preBits.toNat →
    beginDecode s.ports.preValue s.ports.preBits s = some b →
    ∃ k, k ≤ s.ports.len + 1 ∧ Host.Core.run Sys2Proof.core k b = exec .decC s

/-- R198 (marked [derived] by the spec) bounds the per-byte steps of a decode by `LEN`: a decode in progress that
nothing else touches ends: within as many steps as input bytes are left, and one, the block is idle, or the decode is
refused for want of words. The count of steps is the model's choice (log 3): one for each wire byte, and one for the end
of a used-up input. -/
def Obligations.DecodeInProgressEnds : Prop :=
  ∀ s : State, Inv s → s.phase = .decoding → s.contended = false →
    ∃ k, k ≤ s.ports.len - s.dec.di + 1 ∧
      ((∃ t : State, Host.Core.run Sys2Proof.core k s = .next t ∧ t.phase = .idle) ∨
        Host.Core.run Sys2Proof.core k s = .refused Refusal.nmaxExceeded)

/-! ## Refusals -/

/-- R79 (a decision of the spec, D2): the reserved codes select no operation; they are refused, whatever the state. -/
def Obligations.ReservedCodesAreRefused : Prop :=
  ∀ s : State, exec .reserved6 s = .refused .badOp ∧ exec .reserved7 s = .refused .badOp

/-- R82 (a decision of the spec, D10): a pre-bit-count of 65 to 127 is refused, before anything else is looked at. -/
def Obligations.PreBitsAbove64AreRefused : Prop :=
  ∀ s : State, 64 < s.ports.preBits.toNat → exec .decC s = .refused .preBitsRange

/-- R178, R179 (decisions of the spec, D8): two or more words with a zero highest word are refused by SIZE.BIG and by
ENC.BIG, also when the buffer is too small for any encoding: a refusal takes precedence over an error. -/
def Obligations.NonNormalValueIsRefused : Prop :=
  ∀ s : State, ¬ NormalForm s → FitsNmax s s.ports.nwords →
    (s.contended = false → exec .sizeBig s = .refused .nonNormalValue) ∧
      (OutputOwned s → exec .encBig s = .refused .nonNormalValue)

/-- R178 (a decision of the spec, D8): more words than `NMAX` are refused by SIZE.BIG and ENC.BIG. -/
def Obligations.ValueBeyondNmaxIsRefused : Prop :=
  ∀ (s : State) (m : Nat), s.cfg.nmax = some m → m < s.ports.nwords →
    exec .sizeBig s = .refused .nmaxExceeded ∧ exec .encBig s = .refused .nmaxExceeded

/-- R178 (a decision of the spec, D8), R66 (D15), R195: `CAP` or `LEN` larger than the caller's buffer is refused as
`BufferBounds`, a data space that another agent touches as `BufferShared`, of SIZE.BIG too (log 6). That `BufferBounds`
is found first is the model's choice (log 7). -/
def Obligations.BufferHazardsAreRefused : Prop :=
  ∀ s : State,
    (FitsNmax s s.ports.nwords → s.contended = true → exec .sizeBig s = .refused .bufferShared) ∧
    (s.outSize < s.ports.cap → exec .encU64 s = .refused .bufferBounds) ∧
    (s.ports.cap ≤ s.outSize → s.contended = true → exec .encU64 s = .refused .bufferShared) ∧
    (FitsNmax s s.ports.nwords → s.outSize < s.ports.cap → exec .encBig s = .refused .bufferBounds) ∧
    (FitsNmax s s.ports.nwords → s.ports.cap ≤ s.outSize → s.contended = true →
      exec .encBig s = .refused .bufferShared) ∧
    (s.inSize < s.ports.len → exec .dec s = .refused .bufferBounds) ∧
    (s.ports.len ≤ s.inSize → s.contended = true → exec .dec s = .refused .bufferShared) ∧
    (s.ports.preBits.toNat ≤ 64 → s.inSize < s.ports.len → exec .decC s = .refused .bufferBounds) ∧
    (s.ports.preBits.toNat ≤ 64 → s.ports.len ≤ s.inSize → s.contended = true →
      exec .decC s = .refused .bufferShared)

/-- R66 (a decision of the spec, D15), R195: the buffers of a decode are its own "from its start to its end": a decode
in progress whose input is too short, or that another agent touches, is refused at its next step, whichever that is.
That each byte is a step, and that `BufferBounds` is found first, are the model's choices (log 3, log 7). -/
def Obligations.DecodeInProgressRefusesBufferHazards : Prop :=
  ∀ (s : State) (p : Payload), s.phase = .decoding →
    (s.inSize < s.ports.len →
      step s = .refused .bufferBounds ∧ exec (.cont p) s = .refused .bufferBounds ∧
        exec (.term p) s = .refused .bufferBounds) ∧
    (s.ports.len ≤ s.inSize → s.contended = true →
      step s = .refused .bufferShared ∧ exec (.cont p) s = .refused .bufferShared ∧
        exec (.term p) s = .refused .bufferShared)

/-- R178 (a decision of the spec, D8): the list of reasons is closed: every refusal of every instruction is one of the
table's, on its operation and under its condition (and the model's own for a wire byte outside a decode, log 8; that
`BufferShared` covers SIZE.BIG and both buffer reasons a decode in progress is R66, R195 and log 6). No instruction
faults (R180). -/
def Obligations.EveryRefusalHasItsReason : Prop :=
  ∀ (i : Instr) (s : State),
    match exec i s with
    | .next _ => True
    | .fault _ => False
    | .refused .badOp => i = .reserved6 ∨ i = .reserved7
    | .refused .nonNormalValue => (i = .sizeBig ∨ i = .encBig) ∧ ¬ NormalForm s
    | .refused .preBitsRange => i = .decC ∧ 64 < s.ports.preBits.toNat
    | .refused .nmaxExceeded =>
      ((i = .sizeBig ∨ i = .encBig) ∧ ¬ FitsNmax s s.ports.nwords) ∨
      (∃ pv n, DecodeRequest i s pv n ∧
        ((∃ k, TerminatorAt s k ∧
            ¬ FitsNmax s (wordsOfStream s.cfg.width (n + 7 * (k + 1)) (streamValue s pv n (k + 1)))) ∨
          (NoTerminator s ∧ ¬ FitsNmax s ((n + 7 * s.ports.len) / s.cfg.width.bits)))) ∨
      (s.phase = .decoding ∧ ∃ p ws,
        ws = wordsAfter s.cfg.width (wordNumbers s.dec) s.dec.dacc.toNat s.dec.doff.toNat p.toNat ∧
        (i = .cont p ∧ ¬ FitsNmax s ws.length ∨
          i = .term p ∧ ¬ FitsNmax s
            (wordsAtEnd ws (accAfter s.cfg.width s.dec.dacc.toNat s.dec.doff.toNat p.toNat)).length))
    | .refused .bufferShared =>
      s.contended = true ∧ (i = .sizeBig ∨ i = .encU64 ∨ i = .encBig ∨ i = .dec ∨ i = .decC ∨
        (∃ p, i = .cont p ∨ i = .term p) ∧ s.phase = .decoding)
    | .refused .bufferBounds =>
      (i = .encU64 ∨ i = .encBig) ∧ s.outSize < s.ports.cap ∨
      (i = .dec ∨ i = .decC ∨ (∃ p, i = .cont p ∨ i = .term p) ∧ s.phase = .decoding) ∧ s.inSize < s.ports.len
    | .refused .noDecodeInProgress => (∃ p, i = .cont p ∨ i = .term p) ∧ s.phase = .idle
    | .refused (.notModelled _) => False

/-! ## The whole machine -/

/-- The state after reset meets the invariant. Its register values are the model's choice (log 1). -/
def Obligations.ResetMeetsTheInvariant : Prop := Inv State.reset

/-- Every step keeps the invariant. -/
def Obligations.StepKeepsTheInvariant : Prop :=
  ∀ s t : State, Inv s → step s = .next t → Inv t

/-- R21, R22 (the latter a decision of the spec, D1): no step writes an operand port, the input, the value words or the
build; and only the two encodes write the output buffer. -/
def Obligations.StepLeavesTheCallersInputs : Prop :=
  ∀ s t : State, step s = .next t →
    SameInputs s t ∧ (fetch s ≠ some .encU64 → fetch s ≠ some .encBig → t.out = s.out)

/-- R53: no step writes the output buffer at or beyond offset `CAP`, and the encoder's write offset never passes it. -/
def Obligations.StepNeverWritesPastTheCapacity : Prop :=
  ∀ s t : State, step s = .next t →
    (∀ a, s.ports.cap ≤ a → readCell t.out a = readCell s.out a) ∧
      (fetch s = some .encU64 ∨ fetch s = some .encBig → t.enc.epos ≤ s.ports.cap)

/-- R20: what an operation delivers, on the ports that have meaning after it and in the output buffer (of a failing
encode where its prefix is no free choice), does not depend on any working register, result port or phase left from
before, nor on the model's counter of free values. -/
def Obligations.OperationsShareNoState : Prop :=
  ∀ (i : Instr) (s t : State), i.format = .cmd → SameRequest s t → SameOutcome i (exec i s) (exec i t)

/-- R192 (marked [derived] by the spec), R44 (a decision of the spec, D12): reset leaves the block idle and touches
nothing of the caller's, and an operation after it behaves as it would have without it. -/
def Obligations.OperationAfterResetBehavesAsAnyOther : Prop :=
  ∀ (i : Instr) (s : State),
    (applyReset s).phase = .idle ∧ SameInputs s (applyReset s) ∧ (applyReset s).out = s.out ∧
      (i.format = .cmd → SameOutcome i (exec i (applyReset s)) (exec i s))

/-- R9, R174 (the latter marked [derived] by the spec): an operation that ends, in success or in error, leaves the block
idle. -/
def Obligations.OperationsEndIdle : Prop :=
  ∀ (i : Instr) (s t : State), i.format = .cmd → exec i s = .next t → t.phase = .idle
end

