-- ==== Sys2Proof/Laws/Memory.lean ====
section
/-! SUPPORT. Laws of the data spaces: read after write, and that every operation keeps the canonical form. -/
namespace Sys2Proof.Machine

variable {n : Nat}

@[simp] theorem readCell_nil (a : Nat) : readCell ([] : Space n) a = 0 := rfl

@[simp] theorem readCell_cons (m : Space n) (a b : Nat) (v : BitVec n) :
    readCell ((b, v) :: m) a = if a = b then v else readCell m a := rfl

theorem readCell_eraseCell (m : Space n) (a c : Nat) :
    readCell (eraseCell m a) c = if c = a then 0 else readCell m c := by
  induction m with
  | nil => simp [eraseCell]
  | cons x m ih =>
    obtain ⟨b, u⟩ := x
    by_cases h : a = b
    · subst h
      by_cases hc : c = a
      · subst hc
        simpa [eraseCell] using ih
      · simp [eraseCell, ih, hc]
    · by_cases hc : c = b
      · subst hc
        simp [eraseCell, h, Ne.symm h]
      · simp [eraseCell, h, hc, ih]

/-- Inserting a cell where none is listed: it is read back, every other address reads as before. -/
theorem readCell_insertCell (m : Space n) (a c : Nat) (v : BitVec n) (h : ∀ x ∈ m, x.1 ≠ a) :
    readCell (insertCell m a v) c = if c = a then v else readCell m c := by
  induction m with
  | nil => simp [insertCell]
  | cons x m ih =>
    obtain ⟨b, u⟩ := x
    have hb : b ≠ a := h (b, u) (by simp)
    have ih := ih fun x hx => h x (by simp [hx])
    by_cases hab : a < b
    · simp [insertCell, hab]
    · by_cases hc : c = b
      · subst hc
        simp [insertCell, hab, hb]
      · simp [insertCell, hab, hc, ih]

theorem mem_eraseCell (m : Space n) (a : Nat) : ∀ x ∈ eraseCell m a, x.1 ≠ a := by
  induction m with
  | nil => simp [eraseCell]
  | cons x m ih =>
    obtain ⟨b, u⟩ := x
    by_cases h : a = b
    · simpa [eraseCell, h] using ih
    · intro y hy
      simp only [eraseCell, if_neg h, List.mem_cons] at hy
      rcases hy with rfl | hy
      · exact fun e => h e.symm
      · exact ih y hy

/-- What a write does to every read: the address written reads the value, every other one reads as before. -/
theorem readCell_writeCell (m : Space n) (a c : Nat) (v : BitVec n) :
    readCell (writeCell m a v) c = if c = a then v else readCell m c := by
  unfold writeCell
  split
  · rename_i h
    rw [readCell_eraseCell, h]
  · rw [readCell_insertCell _ _ _ _ (mem_eraseCell m a), readCell_eraseCell]
    by_cases hc : c = a <;> simp [hc]

@[simp] theorem readCell_writeCell_same (m : Space n) (a : Nat) (v : BitVec n) :
    readCell (writeCell m a v) a = v := by simp [readCell_writeCell]

theorem readCell_writeCell_other (m : Space n) {a c : Nat} (v : BitVec n) (h : c ≠ a) :
    readCell (writeCell m a v) c = readCell m c := by simp [readCell_writeCell, h]

/-- What a run of writes does to every read. -/
theorem readCell_writeFrom (vs : List (BitVec n)) (m : Space n) (a c : Nat) :
    readCell (writeFrom m a vs) c =
      if a ≤ c ∧ c < a + vs.length then vs.getD (c - a) 0 else readCell m c := by
  induction vs generalizing m a with
  | nil => simp [writeFrom]
  | cons v vs ih =>
    rw [writeFrom, ih, readCell_writeCell, List.length_cons]
    by_cases h : c = a
    · subst h
      simp
    · by_cases h1 : a + 1 ≤ c ∧ c < a + 1 + vs.length
      · have e : c - a = (c - (a + 1)) + 1 := by omega
        rw [if_pos h1, if_pos (by omega), e, List.getD_cons_succ]
      · rw [if_neg h1, if_neg h, if_neg (by omega)]

/-- A kept prefix reads the new cells below its length and the old ones from there on. -/
theorem readCell_keepPrefix (old new : Space n) (k c : Nat) :
    readCell (keepPrefix old new k) c = if c < k then readCell new c else readCell old c := by
  induction k with
  | zero => simp [keepPrefix]
  | succ k ih =>
    rw [keepPrefix, readCell_writeCell, ih]
    by_cases h : c = k
    · simp [h]
    · by_cases h1 : c < k
      · rw [if_neg h, if_pos h1, if_pos (by omega)]
      · rw [if_neg h, if_neg h1, if_neg (by omega)]

/-! ## The canonical form -/

theorem cellsFrom_mono {lo lo' : Nat} (m : Space n) (h : lo' ≤ lo) (hm : cellsFrom lo m = true) :
    cellsFrom lo' m = true := by
  cases m with
  | nil => rfl
  | cons x m =>
    obtain ⟨a, v⟩ := x
    simp only [cellsFrom, Bool.and_eq_true, decide_eq_true_eq] at hm ⊢
    exact ⟨by omega, hm.2⟩

theorem cellsFrom_eraseCell (m : Space n) (a lo : Nat) (hm : cellsFrom lo m = true) :
    cellsFrom lo (eraseCell m a) = true := by
  induction m generalizing lo with
  | nil => rfl
  | cons x m ih =>
    obtain ⟨b, u⟩ := x
    simp only [cellsFrom, Bool.and_eq_true, decide_eq_true_eq] at hm
    by_cases h : a = b
    · simp only [eraseCell, if_pos h]
      exact cellsFrom_mono _ (by omega) (ih _ hm.2.2)
    · simp only [eraseCell, if_neg h, cellsFrom, Bool.and_eq_true, decide_eq_true_eq]
      exact ⟨hm.1, hm.2.1, ih _ hm.2.2⟩

theorem cellsFrom_insertCell (m : Space n) (a lo : Nat) (v : BitVec n) (hv : v ≠ 0) (hlo : lo ≤ a)
    (ha : ∀ x ∈ m, x.1 ≠ a) (hm : cellsFrom lo m = true) : cellsFrom lo (insertCell m a v) = true := by
  induction m generalizing lo with
  | nil => simpa [insertCell, cellsFrom, hlo] using hv
  | cons x m ih =>
    obtain ⟨b, u⟩ := x
    have hb : b ≠ a := ha (b, u) (by simp)
    simp only [cellsFrom, Bool.and_eq_true, decide_eq_true_eq] at hm
    by_cases hab : a < b
    · simp only [insertCell, if_pos hab, cellsFrom, Bool.and_eq_true, decide_eq_true_eq]
      exact ⟨hlo, hv, by omega, hm.2.1, hm.2.2⟩
    · simp only [insertCell, if_neg hab, cellsFrom, Bool.and_eq_true, decide_eq_true_eq]
      exact ⟨hm.1, hm.2.1, ih _ (by omega) (fun x hx => ha x (by simp [hx])) hm.2.2⟩

/-- A write keeps the canonical form. -/
theorem writeCell_wf (m : Space n) (a : Nat) (v : BitVec n) (hm : Memory.wf m = true) :
    Memory.wf (writeCell m a v) = true := by
  unfold writeCell Memory.wf at *
  split
  · exact cellsFrom_eraseCell m a 0 hm
  · rename_i hv
    exact cellsFrom_insertCell _ a 0 v hv (Nat.zero_le a) (mem_eraseCell m a) (cellsFrom_eraseCell m a 0 hm)

theorem writeFrom_wf (vs : List (BitVec n)) (m : Space n) (a : Nat) (hm : Memory.wf m = true) :
    Memory.wf (writeFrom m a vs) = true := by
  induction vs generalizing m a with
  | nil => exact hm
  | cons v vs ih => exact ih _ _ (writeCell_wf m a v hm)

theorem keepPrefix_wf (old new : Space n) (k : Nat) (h : Memory.wf old = true) :
    Memory.wf (keepPrefix old new k) = true := by
  induction k with
  | zero => exact h
  | succ k ih => exact writeCell_wf _ k _ ih

theorem writeOutput_wf (out : Memory) (i : Nat) (b : Byte) (h : Memory.wf out = true) :
    Memory.wf (writeOutput out i b) = true := writeCell_wf out i b h

theorem writeResultWords_wf (ws : List Word) : Memory.wf (writeResultWords ws) = true :=
  writeFrom_wf ws [] 0 rfl

theorem readCell_writeResultWords (ws : List Word) (i : Nat) :
    readCell (writeResultWords ws) i = ws.getD i 0 := by
  rw [writeResultWords, readCell_writeFrom]
  by_cases h : i < ws.length
  · simp [h]
  · simp [h]

theorem readCell_of_lt (m : Space n) (a lo : Nat) (hm : cellsFrom lo m = true) (h : a < lo) :
    readCell m a = 0 := by
  induction m generalizing lo with
  | nil => rfl
  | cons x m ih =>
    obtain ⟨b, u⟩ := x
    simp only [cellsFrom, Bool.and_eq_true, decide_eq_true_eq] at hm
    rw [readCell_cons, if_neg (by omega), ih _ hm.2.2 (by omega)]

/-- Canonical spaces that read alike are equal data. -/
theorem wf_ext (m m' : Space n) (lo : Nat) (hm : cellsFrom lo m = true) (hm' : cellsFrom lo m' = true)
    (h : ∀ a, readCell m a = readCell m' a) : m = m' := by
  induction m generalizing m' lo with
  | nil =>
    cases m' with
    | nil => rfl
    | cons x m' =>
      obtain ⟨b, u⟩ := x
      simp only [cellsFrom, Bool.and_eq_true, decide_eq_true_eq] at hm'
      exact absurd (by simpa using (h b).symm) hm'.2.1
  | cons x m ih =>
    obtain ⟨b, u⟩ := x
    cases m' with
    | nil =>
      simp only [cellsFrom, Bool.and_eq_true, decide_eq_true_eq] at hm
      exact absurd (by simpa using h b) hm.2.1
    | cons y m' =>
      obtain ⟨c, v⟩ := y
      simp only [cellsFrom, Bool.and_eq_true, decide_eq_true_eq] at hm hm'
      have hbc : b = c := by
        rcases Nat.lt_trichotomy b c with hlt | heq | hgt
        · have := h b
          rw [readCell_cons, if_pos rfl, readCell_cons, if_neg (by omega),
            readCell_of_lt m' b _ hm'.2.2 (by omega)] at this
          exact absurd this hm.2.1
        · exact heq
        · have := h c
          rw [readCell_cons, if_neg (by omega), readCell_of_lt m c _ hm.2.2 (by omega), readCell_cons,
            if_pos rfl] at this
          exact absurd this.symm hm'.2.1
      subst hbc
      have huv : u = v := by simpa using h b
      subst huv
      refine congrArg _ (ih m' _ hm.2.2 hm'.2.2 fun a => ?_)
      by_cases hab : a = b
      · subst hab
        rw [readCell_of_lt m a _ hm.2.2 (by omega), readCell_of_lt m' a _ hm'.2.2 (by omega)]
      · simpa [hab] using h a

end Sys2Proof.Machine
end

