-- ==== Sys2Proof/Laws/Ops.lean ====
section
/-! SUPPORT. One lemma for each shared operation on words, bytes and operands: what it computes, as a number or as a
condition. -/
namespace Sys2Proof.Machine

/-! ## Fields of a word -/

theorem and_mask_toNat (v : Word) (m : Nat) (h : m ≤ 64) :
    (v &&& BitVec.ofNat 64 (2 ^ m - 1)).toNat = v.toNat % 2 ^ m := by
  have hm : 2 ^ m ≤ 2 ^ 64 := Nat.pow_le_pow_right (by norm_num) h
  have hp : 0 < 2 ^ m := Nat.pow_pos (by norm_num)
  rw [BitVec.toNat_and, BitVec.toNat_ofNat, Nat.mod_eq_of_lt (by omega), Nat.and_two_pow_sub_one_eq_mod]

@[simp] theorem truncWord_toNat (w : Width) (v : Word) : (truncWord w v).toNat = v.toNat % 2 ^ w.bits := by
  cases w
  · exact and_mask_toNat v 32 (by norm_num)
  · exact (Nat.mod_eq_of_lt v.isLt).symm

theorem truncWord_lt (w : Width) (v : Word) : (truncWord w v).toNat < 2 ^ w.bits := by
  rw [truncWord_toNat]
  exact Nat.mod_lt _ (Nat.pow_pos (by norm_num))

theorem lowHalf_toNat (w : Width) (v : Word) : (lowHalf w v).toNat = v.toNat % 2 ^ w.half := by
  cases w
  · exact and_mask_toNat v 16 (by norm_num)
  · exact and_mask_toNat v 32 (by norm_num)

theorem highHalf_toNat (w : Width) (v : Word) (hv : v.toNat < 2 ^ w.bits) :
    (highHalf w v).toNat = v.toNat / 2 ^ w.half := by
  cases w
  · have h := and_mask_toNat (v >>> 16) 16 (by norm_num)
    rw [BitVec.toNat_ushiftRight, Nat.shiftRight_eq_div_pow] at h
    have hv : v.toNat < 2 ^ 32 := hv
    exact h.trans (Nat.mod_eq_of_lt (by omega))
  · simp [highHalf, Width.half, Nat.shiftRight_eq_div_pow]

theorem lowHalf_lt (w : Width) (v : Word) : (lowHalf w v).toNat < 2 ^ w.half := by
  rw [lowHalf_toNat]
  exact Nat.mod_lt _ (Nat.pow_pos (by norm_num))

theorem highHalf_lt (w : Width) (v : Word) : (highHalf w v).toNat < 2 ^ w.half := by
  cases w
  · have h := and_mask_toNat (v >>> 16) 16 (by norm_num)
    exact h.trans_lt (Nat.mod_lt _ (by norm_num))
  · have := v.isLt
    simp only [highHalf, Width.half, BitVec.toNat_ushiftRight, Nat.shiftRight_eq_div_pow]
    omega

@[simp] theorem lowGroup_toNat (v : Word) : (lowGroup v).toNat = v.toNat % 128 := by
  simp [lowGroup]

theorem readValueWord_lt (s : State) (i : Nat) : (readValueWord s i).toNat < 2 ^ s.cfg.width.bits :=
  truncWord_lt _ _

/-! ## Bytes -/

theorem wireByte_toNat (more : Bool) (p : Payload) :
    (wireByte more p).toNat = p.toNat + if more then 128 else 0 := by
  revert p
  cases more <;> decide

theorem contFlag_eq (b : Byte) : contFlag b = decide (128 ≤ b.toNat) := by
  revert b
  decide

theorem payload_toNat (b : Byte) : (payload b).toNat = b.toNat % 128 := by
  simp [payload, BitVec.extractLsb'_toNat]

/-! ## bitlen and group counts -/

@[simp] theorem bitLength_zero : bitLength 0 = 0 := rfl

/-- `bitlen(v)` is the least number of bits that hold `v`. -/
theorem bitLength_le_iff (v k : Nat) : bitLength v ≤ k ↔ v < 2 ^ k := by
  unfold bitLength
  split
  · rename_i h
    simp [h]
  · rename_i h
    rw [Nat.add_one_le_iff, Nat.log2_lt h]

theorem lt_bitLength_iff (v k : Nat) : k < bitLength v ↔ 2 ^ k ≤ v := by
  have := bitLength_le_iff v k
  omega

theorem canonicalLength_pos (v : Nat) : 0 < canonicalLength v := by
  simp [canonicalLength]

/-- The canonical length is the least positive number of groups that hold `v`. -/
theorem canonicalLength_le_iff (v k : Nat) : canonicalLength v ≤ k ↔ 1 ≤ k ∧ v < 2 ^ (7 * k) := by
  have h := bitLength_le_iff v (7 * k)
  simp only [canonicalLength, groupsOfBits, Nat.max_le]
  omega

/-- One group is taken off a value that does not fit in it. -/
theorem canonicalLength_div (v : Nat) (h : v / 128 ≠ 0) : canonicalLength v = canonicalLength (v / 128) + 1 := by
  refine Nat.le_antisymm ?_ ?_
  · rw [canonicalLength_le_iff]
    have h1 := (canonicalLength_le_iff (v / 128) (canonicalLength (v / 128))).1 le_rfl
    refine ⟨by omega, ?_⟩
    rw [Nat.mul_add, pow_add]
    exact (Nat.div_lt_iff_lt_mul (by norm_num)).1 h1.2
  · have h1 := (canonicalLength_le_iff v (canonicalLength v)).1 le_rfl
    obtain ⟨k, hk⟩ : ∃ k, canonicalLength v = k + 1 := ⟨canonicalLength v - 1, by omega⟩
    rw [hk] at h1 ⊢
    have hk0 : k ≠ 0 := by
      rintro rfl
      exact h (Nat.div_eq_of_lt (by simpa using h1.2))
    rw [Nat.add_le_add_iff_right, canonicalLength_le_iff]
    refine ⟨by omega, ?_⟩
    have h2 := h1.2
    rw [Nat.mul_add, pow_add] at h2
    exact (Nat.div_lt_iff_lt_mul (by norm_num)).2 h2

theorem canonicalLength_of_lt (v : Nat) (h : v < 128) : canonicalLength v = 1 :=
  Nat.le_antisymm ((canonicalLength_le_iff v 1).2 ⟨le_rfl, by simpa using h⟩) (canonicalLength_pos v)

/-! ## NMAX and refusals -/

theorem overNmax_eq_false (m : Option Nat) (n : Nat) : overNmax m n = false ↔ ∀ k, m = some k → n ≤ k := by
  cases m <;> simp [overNmax]

theorem overNmax_eq_true (m : Option Nat) (n : Nat) : overNmax m n = true ↔ ∃ k, m = some k ∧ k < n := by
  cases m <;> simp [overNmax]

@[simp] theorem firstRefusal_nil : firstRefusal [] = none := rfl

theorem firstRefusal_cons (c : Bool) (r : Refusal) (l : List (Bool × Refusal)) :
    firstRefusal ((c, r) :: l) = if c then some r else firstRefusal l := rfl

@[simp] theorem firstRefusal_cons_eq_none (c : Bool) (r : Refusal) (l : List (Bool × Refusal)) :
    firstRefusal ((c, r) :: l) = none ↔ c = false ∧ firstRefusal l = none := by
  cases c <;> simp [firstRefusal]

/-- The refusal named is that of a check that holds. -/
theorem firstRefusal_eq_some (l : List (Bool × Refusal)) (r : Refusal) (h : firstRefusal l = some r) :
    (true, r) ∈ l := by
  induction l with
  | nil => simp at h
  | cons x l ih =>
    obtain ⟨c, q⟩ := x
    cases c
    · exact List.mem_cons_of_mem _ (ih h)
    · obtain rfl := Option.some.inj h
      exact List.mem_cons_self

theorem nonNormalValue_eq_true (s : State) : nonNormalValue s = true ↔ ¬ NormalForm s := by
  simp [nonNormalValue, NormalForm]

theorem nonNormalValue_eq_false (s : State) : nonNormalValue s = false ↔ NormalForm s := by
  rw [← Bool.not_eq_true, nonNormalValue_eq_true, not_not]

theorem refusalSizeBig_eq_none (s : State) :
    refusalSizeBig s = none ↔ FitsNmax s s.ports.nwords ∧ s.contended = false ∧ NormalForm s := by
  simp [refusalSizeBig, overNmax_eq_false, nonNormalValue_eq_false, FitsNmax]

theorem refusalEncU64_eq_none (s : State) : refusalEncU64 s = none ↔ OutputOwned s := by
  simp [refusalEncU64, OutputOwned]

theorem refusalEncBig_eq_none (s : State) :
    refusalEncBig s = none ↔ FitsNmax s s.ports.nwords ∧ OutputOwned s ∧ NormalForm s := by
  simp [refusalEncBig, overNmax_eq_false, nonNormalValue_eq_false, FitsNmax, OutputOwned,
    and_assoc]

theorem refusalDec_eq_none (s : State) : refusalDec s = none ↔ InputOwned s := by
  simp [refusalDec, InputOwned]

theorem refusalDecC_eq_none (s : State) :
    refusalDecC s = none ↔ s.ports.preBits.toNat ≤ 64 ∧ InputOwned s := by
  simp [refusalDecC, InputOwned]

/-! ## Result ports -/

/-- Words of `W` bits written to `RW` read back as words of `W` bits. -/
theorem writeResultWords_lt (w : Width) (ws : List Word) (h : ∀ v ∈ ws, v.toNat < 2 ^ w.bits) (i : Nat) :
    (readCell (writeResultWords ws) i).toNat < 2 ^ w.bits := by
  rw [readCell_writeResultWords]
  by_cases hi : i < ws.length
  · rw [List.getD_eq_getElem _ _ hi]
    exact h _ (List.getElem_mem hi)
  · rw [List.getD_eq_default _ _ (by omega)]
    exact Nat.pow_pos (by norm_num)

@[simp] theorem freeResults_rw_wf (w : Width) (d : Nat) : Memory.wf (freeResults w d).rw = true :=
  writeResultWords_wf _

/-- Whatever the free values are, `RW` holds words of `W` bits. -/
theorem freeResults_rw_lt (w : Width) (d i : Nat) : (readCell (freeResults w d).rw i).toNat < 2 ^ w.bits :=
  writeResultWords_lt w _ (fun v hv => by obtain ⟨x, -, rfl⟩ := List.mem_map.1 hv; exact truncWord_lt w x) i

/-! ## The seed -/

theorem maskSeed_toNat (pv : BitVec 64) (pb : BitVec 7) (h : pb.toNat ≤ 64) :
    (maskSeed pv pb).toNat = pv.toNat % 2 ^ pb.toNat := by
  have key : ((1#64 <<< pb.toNat) - 1#64) = BitVec.ofNat 64 (2 ^ pb.toNat - 1) := by
    generalize pb.toNat = k at h
    interval_cases k <;> rfl
  rw [maskSeed, key, and_mask_toNat _ _ h]

end Sys2Proof.Machine
end

