-- ==== Sys2Proof/Laws/State.lean ====
section
/-! SUPPORT. One lemma per field of State for each operation that ends an operation, resets the block or places a command. -/
namespace Sys2Proof.Machine

@[simp] theorem doneSize_cfg (s : State) (r : SizeRegs) (c : Nat) :
    (doneSize s r c).cfg = s.cfg := rfl
@[simp] theorem doneSize_phase (s : State) (r : SizeRegs) (c : Nat) :
    (doneSize s r c).phase = .idle := rfl
@[simp] theorem doneSize_ports (s : State) (r : SizeRegs) (c : Nat) :
    (doneSize s r c).ports = s.ports := rfl
@[simp] theorem doneSize_vw (s : State) (r : SizeRegs) (c : Nat) :
    (doneSize s r c).vw = s.vw := rfl
@[simp] theorem doneSize_out (s : State) (r : SizeRegs) (c : Nat) :
    (doneSize s r c).out = s.out := rfl
@[simp] theorem doneSize_outSize (s : State) (r : SizeRegs) (c : Nat) :
    (doneSize s r c).outSize = s.outSize := rfl
@[simp] theorem doneSize_inp (s : State) (r : SizeRegs) (c : Nat) :
    (doneSize s r c).inp = s.inp := rfl
@[simp] theorem doneSize_inSize (s : State) (r : SizeRegs) (c : Nat) :
    (doneSize s r c).inSize = s.inSize := rfl
@[simp] theorem doneSize_contended (s : State) (r : SizeRegs) (c : Nat) :
    (doneSize s r c).contended = s.contended := rfl
@[simp] theorem doneSize_res (s : State) (r : SizeRegs) (c : Nat) :
    (doneSize s r c).res = { freeResults s.cfg.width s.draws with count := c } := rfl
@[simp] theorem doneSize_size (s : State) (r : SizeRegs) (c : Nat) :
    (doneSize s r c).size = r := rfl
@[simp] theorem doneSize_enc (s : State) (r : SizeRegs) (c : Nat) :
    (doneSize s r c).enc = s.enc := rfl
@[simp] theorem doneSize_dec (s : State) (r : SizeRegs) (c : Nat) :
    (doneSize s r c).dec = s.dec := rfl
@[simp] theorem doneSize_draws (s : State) (r : SizeRegs) (c : Nat) :
    (doneSize s r c).draws = s.draws + 1 := rfl

@[simp] theorem doneEncode_cfg (s : State) (r : EncRegs) (w : Memory) :
    (doneEncode s r w).cfg = s.cfg := rfl
@[simp] theorem doneEncode_phase (s : State) (r : EncRegs) (w : Memory) :
    (doneEncode s r w).phase = .idle := rfl
@[simp] theorem doneEncode_ports (s : State) (r : EncRegs) (w : Memory) :
    (doneEncode s r w).ports = s.ports := rfl
@[simp] theorem doneEncode_vw (s : State) (r : EncRegs) (w : Memory) :
    (doneEncode s r w).vw = s.vw := rfl
@[simp] theorem doneEncode_out (s : State) (r : EncRegs) (w : Memory) :
    (doneEncode s r w).out = w := rfl
@[simp] theorem doneEncode_outSize (s : State) (r : EncRegs) (w : Memory) :
    (doneEncode s r w).outSize = s.outSize := rfl
@[simp] theorem doneEncode_inp (s : State) (r : EncRegs) (w : Memory) :
    (doneEncode s r w).inp = s.inp := rfl
@[simp] theorem doneEncode_inSize (s : State) (r : EncRegs) (w : Memory) :
    (doneEncode s r w).inSize = s.inSize := rfl
@[simp] theorem doneEncode_contended (s : State) (r : EncRegs) (w : Memory) :
    (doneEncode s r w).contended = s.contended := rfl
@[simp] theorem doneEncode_res (s : State) (r : EncRegs) (w : Memory) :
    (doneEncode s r w).res = { freeResults s.cfg.width s.draws with ok := true, count := r.epos } := rfl
@[simp] theorem doneEncode_size (s : State) (r : EncRegs) (w : Memory) :
    (doneEncode s r w).size = s.size := rfl
@[simp] theorem doneEncode_enc (s : State) (r : EncRegs) (w : Memory) :
    (doneEncode s r w).enc = r := rfl
@[simp] theorem doneEncode_dec (s : State) (r : EncRegs) (w : Memory) :
    (doneEncode s r w).dec = s.dec := rfl
@[simp] theorem doneEncode_draws (s : State) (r : EncRegs) (w : Memory) :
    (doneEncode s r w).draws = s.draws + 1 := rfl

@[simp] theorem doneDecodeU64_cfg (s : State) (r : DecRegs) (v : BitVec 64) :
    (doneDecodeU64 s r v).cfg = s.cfg := rfl
@[simp] theorem doneDecodeU64_phase (s : State) (r : DecRegs) (v : BitVec 64) :
    (doneDecodeU64 s r v).phase = .idle := rfl
@[simp] theorem doneDecodeU64_ports (s : State) (r : DecRegs) (v : BitVec 64) :
    (doneDecodeU64 s r v).ports = s.ports := rfl
@[simp] theorem doneDecodeU64_vw (s : State) (r : DecRegs) (v : BitVec 64) :
    (doneDecodeU64 s r v).vw = s.vw := rfl
@[simp] theorem doneDecodeU64_out (s : State) (r : DecRegs) (v : BitVec 64) :
    (doneDecodeU64 s r v).out = s.out := rfl
@[simp] theorem doneDecodeU64_outSize (s : State) (r : DecRegs) (v : BitVec 64) :
    (doneDecodeU64 s r v).outSize = s.outSize := rfl
@[simp] theorem doneDecodeU64_inp (s : State) (r : DecRegs) (v : BitVec 64) :
    (doneDecodeU64 s r v).inp = s.inp := rfl
@[simp] theorem doneDecodeU64_inSize (s : State) (r : DecRegs) (v : BitVec 64) :
    (doneDecodeU64 s r v).inSize = s.inSize := rfl
@[simp] theorem doneDecodeU64_contended (s : State) (r : DecRegs) (v : BitVec 64) :
    (doneDecodeU64 s r v).contended = s.contended := rfl
@[simp] theorem doneDecodeU64_res (s : State) (r : DecRegs) (v : BitVec 64) :
    (doneDecodeU64 s r v).res = 
      { freeResults s.cfg.width s.draws with ok := true, count := r.di, kind := .u64, res64 := v } := rfl
@[simp] theorem doneDecodeU64_size (s : State) (r : DecRegs) (v : BitVec 64) :
    (doneDecodeU64 s r v).size = s.size := rfl
@[simp] theorem doneDecodeU64_enc (s : State) (r : DecRegs) (v : BitVec 64) :
    (doneDecodeU64 s r v).enc = s.enc := rfl
@[simp] theorem doneDecodeU64_dec (s : State) (r : DecRegs) (v : BitVec 64) :
    (doneDecodeU64 s r v).dec = r := rfl
@[simp] theorem doneDecodeU64_draws (s : State) (r : DecRegs) (v : BitVec 64) :
    (doneDecodeU64 s r v).draws = s.draws + 1 := rfl

@[simp] theorem doneDecodeBig_cfg (s : State) (r : DecRegs) :
    (doneDecodeBig s r).cfg = s.cfg := rfl
@[simp] theorem doneDecodeBig_phase (s : State) (r : DecRegs) :
    (doneDecodeBig s r).phase = .idle := rfl
@[simp] theorem doneDecodeBig_ports (s : State) (r : DecRegs) :
    (doneDecodeBig s r).ports = s.ports := rfl
@[simp] theorem doneDecodeBig_vw (s : State) (r : DecRegs) :
    (doneDecodeBig s r).vw = s.vw := rfl
@[simp] theorem doneDecodeBig_out (s : State) (r : DecRegs) :
    (doneDecodeBig s r).out = s.out := rfl
@[simp] theorem doneDecodeBig_outSize (s : State) (r : DecRegs) :
    (doneDecodeBig s r).outSize = s.outSize := rfl
@[simp] theorem doneDecodeBig_inp (s : State) (r : DecRegs) :
    (doneDecodeBig s r).inp = s.inp := rfl
@[simp] theorem doneDecodeBig_inSize (s : State) (r : DecRegs) :
    (doneDecodeBig s r).inSize = s.inSize := rfl
@[simp] theorem doneDecodeBig_contended (s : State) (r : DecRegs) :
    (doneDecodeBig s r).contended = s.contended := rfl
@[simp] theorem doneDecodeBig_res (s : State) (r : DecRegs) :
    (doneDecodeBig s r).res = 
      { freeResults s.cfg.width s.draws with
        ok := true, count := r.di, kind := .big, resNW := r.dnw, rw := writeResultWords r.dws } := rfl
@[simp] theorem doneDecodeBig_size (s : State) (r : DecRegs) :
    (doneDecodeBig s r).size = s.size := rfl
@[simp] theorem doneDecodeBig_enc (s : State) (r : DecRegs) :
    (doneDecodeBig s r).enc = s.enc := rfl
@[simp] theorem doneDecodeBig_dec (s : State) (r : DecRegs) :
    (doneDecodeBig s r).dec = r := rfl
@[simp] theorem doneDecodeBig_draws (s : State) (r : DecRegs) :
    (doneDecodeBig s r).draws = s.draws + 1 := rfl

@[simp] theorem raiseInsufficientCapacity_cfg (s : State) (r : EncRegs) (w : Memory) :
    (raiseInsufficientCapacity s r w).cfg = s.cfg := rfl
@[simp] theorem raiseInsufficientCapacity_phase (s : State) (r : EncRegs) (w : Memory) :
    (raiseInsufficientCapacity s r w).phase = .idle := rfl
@[simp] theorem raiseInsufficientCapacity_ports (s : State) (r : EncRegs) (w : Memory) :
    (raiseInsufficientCapacity s r w).ports = s.ports := rfl
@[simp] theorem raiseInsufficientCapacity_vw (s : State) (r : EncRegs) (w : Memory) :
    (raiseInsufficientCapacity s r w).vw = s.vw := rfl
@[simp] theorem raiseInsufficientCapacity_out (s : State) (r : EncRegs) (w : Memory) :
    (raiseInsufficientCapacity s r w).out = keepPrefix s.out w (failingPrefix s.cfg s.ports.cap s.draws) := rfl
@[simp] theorem raiseInsufficientCapacity_outSize (s : State) (r : EncRegs) (w : Memory) :
    (raiseInsufficientCapacity s r w).outSize = s.outSize := rfl
@[simp] theorem raiseInsufficientCapacity_inp (s : State) (r : EncRegs) (w : Memory) :
    (raiseInsufficientCapacity s r w).inp = s.inp := rfl
@[simp] theorem raiseInsufficientCapacity_inSize (s : State) (r : EncRegs) (w : Memory) :
    (raiseInsufficientCapacity s r w).inSize = s.inSize := rfl
@[simp] theorem raiseInsufficientCapacity_contended (s : State) (r : EncRegs) (w : Memory) :
    (raiseInsufficientCapacity s r w).contended = s.contended := rfl
@[simp] theorem raiseInsufficientCapacity_res (s : State) (r : EncRegs) (w : Memory) :
    (raiseInsufficientCapacity s r w).res = 
      { freeResults s.cfg.width s.draws with ok := false } := rfl
@[simp] theorem raiseInsufficientCapacity_size (s : State) (r : EncRegs) (w : Memory) :
    (raiseInsufficientCapacity s r w).size = s.size := rfl
@[simp] theorem raiseInsufficientCapacity_enc (s : State) (r : EncRegs) (w : Memory) :
    (raiseInsufficientCapacity s r w).enc = r := rfl
@[simp] theorem raiseInsufficientCapacity_dec (s : State) (r : EncRegs) (w : Memory) :
    (raiseInsufficientCapacity s r w).dec = s.dec := rfl
@[simp] theorem raiseInsufficientCapacity_draws (s : State) (r : EncRegs) (w : Memory) :
    (raiseInsufficientCapacity s r w).draws = s.draws + 1 := rfl

@[simp] theorem raiseUnterminated_cfg (s : State) :
    (raiseUnterminated s).cfg = s.cfg := rfl
@[simp] theorem raiseUnterminated_phase (s : State) :
    (raiseUnterminated s).phase = .idle := rfl
@[simp] theorem raiseUnterminated_ports (s : State) :
    (raiseUnterminated s).ports = s.ports := rfl
@[simp] theorem raiseUnterminated_vw (s : State) :
    (raiseUnterminated s).vw = s.vw := rfl
@[simp] theorem raiseUnterminated_out (s : State) :
    (raiseUnterminated s).out = s.out := rfl
@[simp] theorem raiseUnterminated_outSize (s : State) :
    (raiseUnterminated s).outSize = s.outSize := rfl
@[simp] theorem raiseUnterminated_inp (s : State) :
    (raiseUnterminated s).inp = s.inp := rfl
@[simp] theorem raiseUnterminated_inSize (s : State) :
    (raiseUnterminated s).inSize = s.inSize := rfl
@[simp] theorem raiseUnterminated_contended (s : State) :
    (raiseUnterminated s).contended = s.contended := rfl
@[simp] theorem raiseUnterminated_res (s : State) :
    (raiseUnterminated s).res = { freeResults s.cfg.width s.draws with ok := false, count := 0 } := rfl
@[simp] theorem raiseUnterminated_size (s : State) :
    (raiseUnterminated s).size = s.size := rfl
@[simp] theorem raiseUnterminated_enc (s : State) :
    (raiseUnterminated s).enc = s.enc := rfl
@[simp] theorem raiseUnterminated_dec (s : State) :
    (raiseUnterminated s).dec = s.dec := rfl
@[simp] theorem raiseUnterminated_draws (s : State) :
    (raiseUnterminated s).draws = s.draws + 1 := rfl

@[simp] theorem applyReset_cfg (s : State) :
    (applyReset s).cfg = s.cfg := rfl
@[simp] theorem applyReset_phase (s : State) :
    (applyReset s).phase = .idle := rfl
@[simp] theorem applyReset_ports (s : State) :
    (applyReset s).ports = s.ports := rfl
@[simp] theorem applyReset_vw (s : State) :
    (applyReset s).vw = s.vw := rfl
@[simp] theorem applyReset_out (s : State) :
    (applyReset s).out = s.out := rfl
@[simp] theorem applyReset_outSize (s : State) :
    (applyReset s).outSize = s.outSize := rfl
@[simp] theorem applyReset_inp (s : State) :
    (applyReset s).inp = s.inp := rfl
@[simp] theorem applyReset_inSize (s : State) :
    (applyReset s).inSize = s.inSize := rfl
@[simp] theorem applyReset_contended (s : State) :
    (applyReset s).contended = s.contended := rfl
@[simp] theorem applyReset_res (s : State) :
    (applyReset s).res = State.reset.res := rfl
@[simp] theorem applyReset_size (s : State) :
    (applyReset s).size = State.reset.size := rfl
@[simp] theorem applyReset_enc (s : State) :
    (applyReset s).enc = State.reset.enc := rfl
@[simp] theorem applyReset_dec (s : State) :
    (applyReset s).dec = State.reset.dec := rfl
@[simp] theorem applyReset_draws (s : State) :
    (applyReset s).draws = s.draws := rfl

@[simp] theorem placeCommand_cfg (s : State) (op : BitVec 3) :
    (placeCommand s op).cfg = s.cfg := rfl
@[simp] theorem placeCommand_phase (s : State) (op : BitVec 3) :
    (placeCommand s op).phase = .idle := rfl
@[simp] theorem placeCommand_ports (s : State) (op : BitVec 3) :
    (placeCommand s op).ports = { s.ports with op := op } := rfl
@[simp] theorem placeCommand_vw (s : State) (op : BitVec 3) :
    (placeCommand s op).vw = s.vw := rfl
@[simp] theorem placeCommand_out (s : State) (op : BitVec 3) :
    (placeCommand s op).out = s.out := rfl
@[simp] theorem placeCommand_outSize (s : State) (op : BitVec 3) :
    (placeCommand s op).outSize = s.outSize := rfl
@[simp] theorem placeCommand_inp (s : State) (op : BitVec 3) :
    (placeCommand s op).inp = s.inp := rfl
@[simp] theorem placeCommand_inSize (s : State) (op : BitVec 3) :
    (placeCommand s op).inSize = s.inSize := rfl
@[simp] theorem placeCommand_contended (s : State) (op : BitVec 3) :
    (placeCommand s op).contended = s.contended := rfl
@[simp] theorem placeCommand_res (s : State) (op : BitVec 3) :
    (placeCommand s op).res = s.res := rfl
@[simp] theorem placeCommand_size (s : State) (op : BitVec 3) :
    (placeCommand s op).size = s.size := rfl
@[simp] theorem placeCommand_enc (s : State) (op : BitVec 3) :
    (placeCommand s op).enc = s.enc := rfl
@[simp] theorem placeCommand_dec (s : State) (op : BitVec 3) :
    (placeCommand s op).dec = s.dec := rfl
@[simp] theorem placeCommand_draws (s : State) (op : BitVec 3) :
    (placeCommand s op).draws = s.draws := rfl

end Sys2Proof.Machine
end

