-- ==== Sys2Proof/Laws/Decoder.lean ====
section
/-! SUPPORT. What the decoder's micro-steps can do to its registers, once for each of them. -/
namespace Sys2Proof.Machine

theorem bits_le (w : Width) : w.bits ≤ 64 := by cases w <;> decide

theorem seven_lt_bits (w : Width) : 7 < w.bits := by cases w <;> decide

@[simp] theorem nextIndex_di (r : DecRegs) : (nextIndex r).di = r.di + 1 := rfl
@[simp] theorem nextIndex_dacc (r : DecRegs) : (nextIndex r).dacc = r.dacc := rfl
@[simp] theorem nextIndex_doff (r : DecRegs) : (nextIndex r).doff = r.doff := rfl
@[simp] theorem nextIndex_dws (r : DecRegs) : (nextIndex r).dws = r.dws := rfl
@[simp] theorem nextIndex_dnw (r : DecRegs) : (nextIndex r).dnw = r.dnw := rfl
@[simp] theorem nextIndex_dpv (r : DecRegs) : (nextIndex r).dpv = r.dpv := rfl
@[simp] theorem nextIndex_drem (r : DecRegs) : (nextIndex r).drem = r.drem := rfl

/-! ## Closing out a word -/

theorem appendWord_of_fits {nmax : Option Nat} {v : Word} {r : DecRegs}
    (h : overNmax nmax (r.dws.length + 1) = false) :
    appendWord nmax v r = some { r with dws := r.dws ++ [v], dnw := r.dws.length + 1 } := by
  simp [appendWord, h]

/-- The only thing closing out a word does, and when. -/
theorem appendWord_eq_some {nmax : Option Nat} {v : Word} {r r' : DecRegs} (h : appendWord nmax v r = some r') :
    overNmax nmax (r.dws.length + 1) = false ∧
      r' = { r with dws := r.dws ++ [v], dnw := r.dws.length + 1 } := by
  unfold appendWord at h
  split at h
  · simp at h
  · rename_i hn
    exact ⟨by simpa using hn, (Option.some.inj h).symm⟩

theorem appendWord_eq_none {nmax : Option Nat} {v : Word} {r : DecRegs} :
    appendWord nmax v r = none ↔ overNmax nmax (r.dws.length + 1) = true := by
  unfold appendWord
  split <;> simp_all

/-! ## The per-byte step -/

/-- The bit offset and the payload's place in the container lose nothing. -/
theorem offset_toNat {w : Width} {off : BitVec 7} (h : off.toNat < w.bits) : (off + 7#7).toNat = off.toNat + 7 := by
  have := bits_le w
  rw [BitVec.toNat_add_of_lt]
  · rfl
  · simp only [BitVec.toNat_ofNat]; omega

theorem placedPayload_toNat (w : Width) (p : Payload) (acc : Word) (off : BitVec 7) :
    (truncWord w (acc ||| (p.setWidth 64 <<< off.toNat))).toNat =
      (acc.toNat ||| (p.toNat <<< off.toNat)) % 2 ^ w.bits := by
  have hp : p.toNat < 2 ^ 64 := p.isLt.trans (by norm_num)
  have hd : 2 ^ w.bits ∣ 2 ^ 64 := Nat.pow_dvd_pow 2 (bits_le w)
  rw [truncWord_toNat, BitVec.toNat_or, BitVec.toNat_shiftLeft, BitVec.toNat_setWidth, Nat.mod_eq_of_lt hp]
  rw [← Nat.mod_mod_of_dvd _ hd, Nat.or_mod_two_pow, Nat.mod_mod, ← Nat.or_mod_two_pow, Nat.mod_mod_of_dvd _ hd]

/-- The registers after a byte, as numbers (`43_decoder.md` R144). -/
theorem byteStep_numbers {w : Width} {nmax : Option Nat} {p : Payload} {r r' : DecRegs}
    (hoff : r.doff.toNat < w.bits) (h : byteStep w nmax p r = some r') :
    r'.dacc.toNat = accAfter w r.dacc.toNat r.doff.toNat p.toNat ∧
      r'.doff.toNat = offAfter w r.doff.toNat ∧
      wordNumbers r' = wordsAfter w (wordNumbers r) r.dacc.toNat r.doff.toNat p.toNat ∧
      r'.di = r.di ∧ r'.dpv = r.dpv ∧ r'.drem = r.drem ∧
      (r'.dnw = r'.dws.length ∨ r'.dws = r.dws ∧ r'.dnw = r.dnw) := by
  have ho := offset_toNat hoff
  have hb := bits_le w
  have hb7 := seven_lt_bits w
  unfold byteStep at h
  simp only [ho] at h
  by_cases hc : r.doff.toNat + 7 < w.bits
  · rw [if_pos hc] at h
    obtain rfl := Option.some.inj h
    simp only [accAfter, offAfter, wordsAfter, if_pos hc, placedPayload_toNat, ho, wordNumbers, and_self,
      or_true]
  · rw [if_neg hc] at h
    split at h
    · simp at h
    · rename_i q hq
      obtain ⟨-, rfl⟩ := appendWord_eq_some hq
      obtain rfl := Option.some.inj h
      have hw : (r.doff + 7#7 - BitVec.ofNat 7 w.bits).toNat = r.doff.toNat + 7 - w.bits := by
        rw [BitVec.toNat_sub_of_le, ho, BitVec.toNat_ofNat, Nat.mod_eq_of_lt (by omega)]
        rw [BitVec.le_def, ho, BitVec.toNat_ofNat]
        exact (Nat.mod_le _ _).trans (by omega)
      have hp : p.toNat >>> (7 - (r.doff.toNat + 7 - w.bits)) < 2 ^ 64 :=
        (Nat.shiftRight_le _ _).trans_lt (p.isLt.trans (by norm_num))
      simp only [accAfter, offAfter, wordsAfter, if_neg hc, hw, BitVec.toNat_setWidth,
        BitVec.toNat_ushiftRight, Nat.mod_eq_of_lt hp, wordNumbers, List.map_append, List.map_cons, List.map_nil,
        placedPayload_toNat, List.length_append, List.length_cons, List.length_nil, true_or, and_self]

/-- When the per-byte step closes out a word that is one too many. -/
theorem byteStep_eq_none {w : Width} {nmax : Option Nat} {p : Payload} {r : DecRegs} (hoff : r.doff.toNat < w.bits) :
    byteStep w nmax p r = none ↔ w.bits ≤ r.doff.toNat + 7 ∧ overNmax nmax (r.dws.length + 1) = true := by
  unfold byteStep
  simp only [offset_toNat hoff]
  by_cases hc : r.doff.toNat + 7 < w.bits
  · simp [if_pos hc]; omega
  · rw [if_neg hc]
    split
    · rename_i hq
      have hq := appendWord_eq_none.1 hq
      exact iff_of_true rfl ⟨by omega, hq⟩
    · rename_i q hq
      refine iff_of_false (by simp) fun h => ?_
      rw [(appendWord_eq_some hq).1] at h
      exact absurd h.2 (by simp)

/-- Between bytes the accumulator holds the bits below the offset, and the offset is below `W` (`10_state.md` R34). -/
theorem accAfter_lt {w : Width} {acc off p : Nat} (hoff : off < w.bits) (hacc : acc < 2 ^ off) (hp : p < 128) :
    accAfter w acc off p < 2 ^ offAfter w off ∧ offAfter w off < w.bits := by
  have hb7 := seven_lt_bits w
  unfold accAfter offAfter
  split
  · rename_i hc
    refine ⟨(Nat.mod_le _ _).trans_lt (Nat.or_lt_two_pow (hacc.trans_le ?_) ?_), hc⟩
    · exact Nat.pow_le_pow_right (by norm_num) (by omega)
    · rw [Nat.shiftLeft_eq, Nat.add_comm, pow_add]
      exact Nat.mul_lt_mul_of_pos_right hp (Nat.pow_pos (by norm_num))
  · refine ⟨?_, by omega⟩
    rw [Nat.shiftRight_eq_div_pow, Nat.div_lt_iff_lt_mul (Nat.pow_pos (by norm_num)), ← pow_add]
    rw [show off + 7 - w.bits + (7 - (off + 7 - w.bits)) = 7 by omega]
    exact hp

/-! ## What a decode's registers always satisfy -/

/-- The part of the invariant that is about the Decoder's registers (`10_state.md` R33 to R35). -/
structure DecRange (w : Width) (nmax : Option Nat) (r : DecRegs) : Prop where
  dacc : r.dacc.toNat < 2 ^ w.bits
  dws : ∀ v ∈ r.dws, v.toNat < 2 ^ w.bits
  dnw : r.dnw = r.dws.length
  nmax : overNmax nmax r.dws.length = false

/-- The part that holds between two bytes. -/
structure DecBetween (w : Width) (r : DecRegs) : Prop where
  doff : r.doff.toNat < w.bits
  dacc : r.dacc.toNat < 2 ^ r.doff.toNat

/-- The input index has no part in it. -/
theorem DecRange.nextIndex {w : Width} {nmax : Option Nat} {r : DecRegs} (h : DecRange w nmax r) :
    DecRange w nmax (nextIndex r) := ⟨h.dacc, h.dws, h.dnw, h.nmax⟩

theorem DecBetween.nextIndex {w : Width} {r : DecRegs} (h : DecBetween w r) :
    DecBetween w (nextIndex r) := ⟨h.doff, h.dacc⟩

theorem appendWord_range {w : Width} {nmax : Option Nat} {v : Word} {r r' : DecRegs}
    (hr : DecRange w nmax r) (hv : v.toNat < 2 ^ w.bits) (h : appendWord nmax v r = some r') :
    DecRange w nmax r' := by
  obtain ⟨hn, rfl⟩ := appendWord_eq_some h
  refine ⟨hr.dacc, fun x hx => ?_, by simp, by simpa using hn⟩
  rcases List.mem_append.1 hx with hx | hx
  · exact hr.dws x hx
  · exact List.mem_singleton.1 hx ▸ hv

theorem byteStep_range {w : Width} {nmax : Option Nat} {p : Payload} {r r' : DecRegs}
    (hr : DecRange w nmax r) (hb : DecBetween w r) (h : byteStep w nmax p r = some r') :
    DecRange w nmax r' ∧ DecBetween w r' := by
  obtain ⟨ha, ho, -⟩ := byteStep_numbers hb.doff h
  have hlt := accAfter_lt hb.doff hb.dacc p.isLt
  rw [← ha, ← ho] at hlt
  refine ⟨?_, hlt.2, hlt.1⟩
  have hd : r'.dacc.toNat < 2 ^ w.bits := hlt.1.trans (Nat.pow_lt_pow_right (by norm_num) hlt.2)
  unfold byteStep at h
  simp only at h
  split at h
  · obtain rfl := Option.some.inj h
    exact ⟨hd, hr.dws, hr.dnw, hr.nmax⟩
  · split at h
    · simp at h
    · rename_i q hq
      obtain rfl := Option.some.inj h
      have hq := appendWord_range
        (r := { r with dacc := truncWord w (r.dacc ||| p.setWidth 64 <<< r.doff.toNat), doff := r.doff + 7#7 })
        ⟨truncWord_lt w _, hr.dws, hr.dnw, hr.nmax⟩ (truncWord_lt w _) hq
      exact ⟨hd, hq.dws, hq.dnw, hq.nmax⟩

theorem terminate_range {w : Width} {nmax : Option Nat} {r r' : DecRegs} (hr : DecRange w nmax r)
    (h : terminate nmax r = some r') : DecRange w nmax r' := by
  unfold terminate at h
  split at h
  · obtain rfl := Option.some.inj h
    exact ⟨hr.dacc, hr.dws, rfl, hr.nmax⟩
  · exact appendWord_range hr hr.dacc h

/-- The words after termination, as numbers (`43_decoder.md` R145). -/
theorem terminate_numbers {nmax : Option Nat} {r r' : DecRegs} (h : terminate nmax r = some r') :
    wordNumbers r' = wordsAtEnd (wordNumbers r) r.dacc.toNat ∧ r'.dnw = r'.dws.length ∧ r'.di = r.di ∧
      r'.dacc = r.dacc := by
  unfold terminate at h
  split at h
  · rename_i h0
    obtain rfl := Option.some.inj h
    simp [wordNumbers, wordsAtEnd, h0]
  · rename_i h0
    obtain ⟨-, rfl⟩ := appendWord_eq_some h
    have : r.dacc.toNat ≠ 0 := fun e => h0 (BitVec.eq_of_toNat_eq e)
    simp [wordNumbers, wordsAtEnd, this]

/-! ## Seeding -/

/-- What spilling keeps: what is left of the seed is below its bit count, the words are words. -/
theorem spillSeed_range {w : Width} {nmax : Option Nat} {k : Nat} {r r' : DecRegs}
    (hd : r.dpv.toNat < 2 ^ r.drem.toNat) (hk : r.drem.toNat < w.bits * (k + 1))
    (hw : ∀ v ∈ r.dws, v.toNat < 2 ^ w.bits) (hn : r.dnw = r.dws.length) (hx : overNmax nmax r.dws.length = false)
    (h : spillSeed w nmax k r = some r') :
    r'.dpv.toNat < 2 ^ r'.drem.toNat ∧ r'.drem.toNat < w.bits ∧ (∀ v ∈ r'.dws, v.toNat < 2 ^ w.bits) ∧
      r'.dnw = r'.dws.length ∧ overNmax nmax r'.dws.length = false ∧ r'.di = r.di := by
  induction k generalizing r with
  | zero =>
    obtain rfl := Option.some.inj h
    exact ⟨hd, by simpa using hk, hw, hn, hx, rfl⟩
  | succ k ih =>
    unfold spillSeed at h
    split at h
    · rename_i hlt
      obtain rfl := Option.some.inj h
      exact ⟨hd, hlt, hw, hn, hx, rfl⟩
    · rename_i hge
      split at h
      · simp at h
      · rename_i q hq
        obtain ⟨hn', rfl⟩ := appendWord_eq_some hq
        have hb := bits_le w
        have hs : (r.drem - BitVec.ofNat 7 w.bits).toNat = r.drem.toNat - w.bits := by
          have e : (BitVec.ofNat 7 w.bits).toNat = w.bits := by
            rw [BitVec.toNat_ofNat, Nat.mod_eq_of_lt (by omega)]
          rw [BitVec.toNat_sub_of_le, e]
          rw [BitVec.le_def, e]
          omega
        refine ih (r := { r with
          dws := r.dws ++ [truncWord w r.dpv]
          dnw := r.dws.length + 1
          dpv := r.dpv >>> w.bits
          drem := r.drem - BitVec.ofNat 7 w.bits }) ?_ ?_ ?_ ?_ ?_ h
        · simp only [hs, BitVec.toNat_ushiftRight, Nat.shiftRight_eq_div_pow]
          rw [Nat.div_lt_iff_lt_mul (Nat.pow_pos (by norm_num)), ← pow_add, Nat.sub_add_cancel (by omega)]
          exact hd
        · simp only [hs]
          rw [Nat.mul_add] at hk
          omega
        · intro v hv
          rcases List.mem_append.1 hv with hv | hv
          · exact hw v hv
          · exact List.mem_singleton.1 hv ▸ truncWord_lt w _
        · simp
        · simpa using hn'

/-- What a seed leaves (`43_decoder.md` R142, R143). -/
theorem seed_range {w : Width} {nmax : Option Nat} {pv : BitVec 64} {pb : BitVec 7} {r r' : DecRegs}
    (hpb : pb.toNat ≤ 64) (h : seed w nmax pv pb r = some r') :
    DecRange w nmax r' ∧ DecBetween w r' ∧ r'.di = 0 := by
  have hb := bits_le w
  unfold seed at h
  split at h
  · simp at h
  · rename_i q hq
    obtain rfl := Option.some.inj h
    obtain ⟨h1, h2, h3, h4, h5, h6⟩ := spillSeed_range (w := w) (by
        simp only [maskSeed_toNat pv pb hpb]
        exact Nat.mod_lt _ (Nat.pow_pos (by norm_num)))
      (by cases w <;> simp only [Width.bits] <;> omega) (by simp) rfl
      (by cases nmax <;> simp [overNmax]) hq
    refine ⟨⟨truncWord_lt w _, h3, h4, h5⟩, ⟨h2, ?_⟩, h6⟩
    simp only [truncWord_toNat]
    exact (Nat.mod_le _ _).trans_lt h1

end Sys2Proof.Machine
end

