-- ==== Sys2Proof/Laws/Encoder.lean ====
section
/-! SUPPORT. What the encoder's micro-steps can do to the output buffer and to its registers, once for each of them. -/
namespace Sys2Proof.Machine

@[simp] theorem andThen_going (r : EncRegs) (out : Memory) (f : EncRegs → Memory → Emission) :
    andThen (.going r out) f = f r out := rfl

@[simp] theorem andThen_raised (r : EncRegs) (out : Memory) (f : EncRegs → Memory → Emission) :
    andThen (.raised r out) f = .raised r out := rfl

theorem emit_of_le (cap : Nat) (b : Byte) (r : EncRegs) (out : Memory) (h : cap ≤ r.epos) :
    emit cap b r out = .raised r out := if_pos h

theorem emit_of_lt (cap : Nat) (b : Byte) (r : EncRegs) (out : Memory) (h : r.epos < cap) :
    emit cap b r out = .going { r with epos := r.epos + 1 } (writeOutput out r.epos b) := if_neg (by omega)

/-- A property of where an emission stands, going on or raised. -/
def endsIn (P : EncRegs → Memory → Prop) (e : Emission) : Prop :=
  match e with
  | .going r out => P r out
  | .raised r out => P r out

/-- A property that one micro-step leads to and the next keeps holds after both. -/
theorem endsIn_andThen {P Q : EncRegs → Memory → Prop} {e : Emission} {f : EncRegs → Memory → Emission}
    (he : endsIn Q e) (hr : ∀ r out, Q r out → P r out) (hf : ∀ r out, Q r out → endsIn P (f r out)) :
    endsIn P (andThen e f) := by
  cases e with
  | going r out => exact hf r out he
  | raised r out => exact hr r out he

theorem endsIn_mono {P Q : EncRegs → Memory → Prop} {e : Emission} (h : endsIn Q e)
    (hr : ∀ r out, Q r out → P r out) : endsIn P e := by
  cases e <;> exact hr _ _ h

/-! ## The buffer -/

/-- From offset `p` to offset `p'` the buffer was appended to: the offset grows and does not pass the capacity, the bytes
outside are as they were (`20_memory.md` R53, R62; `42_encoder.md` R111). -/
structure Appended (cap p : Nat) (out : Memory) (p' : Nat) (out' : Memory) : Prop where
  grows : p ≤ p'
  bounded : p ≤ cap → p' ≤ cap
  below : ∀ a, a < p → readCell out' a = readCell out a
  beyond : ∀ a, p' ≤ a → readCell out' a = readCell out a
  canonical : Memory.wf out = true → Memory.wf out' = true

theorem Appended.refl (cap p : Nat) (out : Memory) : Appended cap p out p out :=
  ⟨le_rfl, id, fun _ _ => rfl, fun _ _ => rfl, id⟩

theorem Appended.trans {cap p p' p'' : Nat} {out out' out'' : Memory} (h : Appended cap p out p' out')
    (h' : Appended cap p' out' p'' out'') : Appended cap p out p'' out'' where
  grows := h.grows.trans h'.grows
  bounded := h'.bounded ∘ h.bounded
  below a ha := (h'.below a (ha.trans_le h.grows)).trans (h.below a ha)
  beyond a ha := (h'.beyond a ha).trans (h.beyond a (h'.grows.trans ha))
  canonical := h'.canonical ∘ h.canonical

/-- An emission that started at offset `p` of the buffer only appended to it. -/
def Appends (cap p : Nat) (out : Memory) (e : Emission) : Prop :=
  endsIn (fun r' out' => Appended cap p out r'.epos out') e

theorem appends_going (cap p : Nat) (out : Memory) (r : EncRegs) (h : r.epos = p) :
    Appends cap p out (.going r out) := h ▸ Appended.refl cap r.epos out

theorem appends_andThen {cap p : Nat} {out : Memory} {e : Emission} {f : EncRegs → Memory → Emission}
    (he : Appends cap p out e) (hf : ∀ r out', Appends cap r.epos out' (f r out')) :
    Appends cap p out (andThen e f) :=
  endsIn_andThen he (fun _ _ h => h) fun r out' h => endsIn_mono (hf r out') fun _ _ h' => h.trans h'

theorem emit_appends (cap : Nat) (b : Byte) (r : EncRegs) (out : Memory) :
    Appends cap r.epos out (emit cap b r out) := by
  by_cases h : cap ≤ r.epos
  · rw [emit_of_le _ _ _ _ h]
    exact Appended.refl cap r.epos out
  · rw [emit_of_lt _ _ _ _ (by omega)]
    exact
      ⟨Nat.le_succ _, fun _ => by simp only; omega, fun a ha => readCell_writeCell_other _ _ (by omega),
        fun a ha => readCell_writeCell_other _ _ (by simp only at ha; omega), writeOutput_wf out _ b⟩

theorem encodeU64Loop_appends (cap k : Nat) (r : EncRegs) (out : Memory) :
    Appends cap r.epos out (encodeU64Loop cap k r out) := by
  induction k generalizing r out with
  | zero => exact Appended.refl cap r.epos out
  | succ k ih =>
    refine appends_andThen (emit_appends cap _ { r with ev := r.ev >>> 7 } out) fun r out' => ?_
    split
    · exact Appended.refl cap r.epos out'
    · exact ih r out'

theorem flushGroup_appends (cap : Nat) (r : EncRegs) (out : Memory) :
    Appends cap r.epos out (flushGroup cap r out) :=
  appends_andThen (emit_appends cap _ r out) fun r out' => Appended.refl cap r.epos out'

theorem flushGroups_appends (cap k : Nat) (r : EncRegs) (out : Memory) :
    Appends cap r.epos out (flushGroups cap k r out) := by
  induction k generalizing r out with
  | zero => exact Appended.refl cap r.epos out
  | succ k ih => exact appends_andThen (flushGroup_appends cap r out) ih

theorem halfStep_appends (w : Width) (cap : Nat) (half : Half) (h : Word) (r : EncRegs) (out : Memory) :
    Appends cap r.epos out (halfStep w cap half h r out) :=
  appends_andThen (flushGroups_appends cap _ (placeHalf w half h r) out) fun r out' =>
    Appended.refl cap r.epos out'

theorem finalFlush_appends (cap k : Nat) (r : EncRegs) (out : Memory) :
    Appends cap r.epos out (finalFlush cap k r out) := by
  induction k generalizing r out with
  | zero => exact Appended.refl cap r.epos out
  | succ k ih =>
    refine appends_andThen (emit_appends cap _ { r with eacc := r.eacc >>> 7 } out) fun r out' => ?_
    split
    · exact Appended.refl cap r.epos out'
    · exact ih r out'

theorem innerWord_appends (w : Width) (cap : Nat) (v : Word) (r : EncRegs) (out : Memory) :
    Appends cap r.epos out (innerWord w cap v r out) :=
  appends_andThen (halfStep_appends w cap .low _ r out) fun r out' =>
    appends_andThen (halfStep_appends w cap .high _ r out') fun r out'' => Appended.refl cap r.epos out''

theorem lastWord_appends (w : Width) (cap : Nat) (v : Word) (r : EncRegs) (out : Memory) :
    Appends cap r.epos out (lastWord w cap v r out) := by
  unfold lastWord
  split
  · exact finalFlush_appends cap 10 (placeHalf w .low (lowHalf w v) r) out
  · exact appends_andThen (halfStep_appends w cap .low _ r out) fun r out' =>
      finalFlush_appends cap 10 (placeHalf w .high (highHalf w v) r) out'

theorem encodeWords_appends (w : Width) (cap : Nat) (vs : List Word) (r : EncRegs) (out : Memory) :
    Appends cap r.epos out (encodeWords w cap vs r out) := by
  induction vs generalizing r out with
  | nil => exact Appended.refl cap r.epos out
  | cons v vs ih =>
    cases vs with
    | nil => exact lastWord_appends w cap v r out
    | cons v' vs => exact appends_andThen (innerWord_appends w cap v r out) ih

/-! ## The accumulator and the group counter -/

theorem groups_le (w : Width) (s : Fin 14) : (bitGroupTable w s).groups ≤ 5 := by
  revert s
  cases w <;> decide

/-- The accumulator is a `W`-bit value and `eg` is at most 5 (`10_state.md` R29, R31). -/
def EncRange (w : Width) (r : EncRegs) : Prop := r.eacc.toNat < 2 ^ w.bits ∧ r.eg.toNat ≤ 5

theorem shiftRight_lt {v : Word} {m : Nat} (h : v.toNat < m) : (v >>> 7).toNat < m := by
  rw [BitVec.toNat_ushiftRight]
  exact (Nat.shiftRight_le _ _).trans_lt h

theorem emit_ends (cap : Nat) (b : Byte) (r : EncRegs) (out : Memory) :
    endsIn (fun r' _ => r'.ev = r.ev ∧ r'.eacc = r.eacc ∧ r'.estep = r.estep ∧ r'.ewi = r.ewi ∧
      r'.ehalf = r.ehalf ∧ r'.eg = r.eg) (emit cap b r out) := by
  by_cases h : cap ≤ r.epos
  · rw [emit_of_le _ _ _ _ h]
    exact ⟨rfl, rfl, rfl, rfl, rfl, rfl⟩
  · rw [emit_of_lt _ _ _ _ (by omega)]
    exact ⟨rfl, rfl, rfl, rfl, rfl, rfl⟩

theorem encodeU64Loop_range (w : Width) (cap k : Nat) (r : EncRegs) (out : Memory) (h : EncRange w r) :
    endsIn (fun r' _ => EncRange w r') (encodeU64Loop cap k r out) := by
  induction k generalizing r out with
  | zero => exact h
  | succ k ih =>
    refine endsIn_andThen (Q := fun r' _ => EncRange w r') ?_ (fun _ _ h => h) fun r out h => ?_
    · refine endsIn_mono (emit_ends cap _ { r with ev := r.ev >>> 7 } out) fun r' _ e => ?_
      simpa only [EncRange, e.2.1, e.2.2.2.2.2] using h
    · split
      · exact h
      · exact ih r out h

theorem flushGroup_of_le (cap : Nat) (r : EncRegs) (out : Memory) (h : cap ≤ r.epos) :
    flushGroup cap r out = .raised r out := by
  rw [flushGroup, emit_of_le _ _ _ _ h, andThen_raised]

theorem flushGroup_of_lt (cap : Nat) (r : EncRegs) (out : Memory) (h : r.epos < cap) :
    flushGroup cap r out =
      .going { r with epos := r.epos + 1, eacc := r.eacc >>> 7, eg := r.eg - 1 }
        (writeOutput out r.epos (wireByte true (lowGroup r.eacc))) := by
  rw [flushGroup, emit_of_lt _ _ _ _ h, andThen_going]

theorem flushGroups_range (w : Width) (cap k : Nat) (r : EncRegs) (out : Memory) (hk : k ≤ r.eg.toNat)
    (h : EncRange w r) : endsIn (fun r' _ => EncRange w r') (flushGroups cap k r out) := by
  induction k generalizing r out with
  | zero => exact h
  | succ k ih =>
    have hg : (r.eg - 1).toNat = r.eg.toNat - 1 :=
      BitVec.toNat_sub_of_le (BitVec.le_def.2 ((Nat.succ_le_succ (Nat.zero_le k)).trans hk))
    rw [flushGroups]
    by_cases hc : cap ≤ r.epos
    · rw [flushGroup_of_le _ _ _ hc, andThen_raised]
      exact h
    · rw [flushGroup_of_lt _ _ _ (by omega), andThen_going]
      exact ih _ _ (by simp only [hg]; omega) ⟨shiftRight_lt h.1, by simp only [hg]; exact (Nat.sub_le _ 1).trans h.2⟩

theorem placeHalf_range (w : Width) (half : Half) (h : Word) (r : EncRegs) : EncRange w (placeHalf w half h r) := by
  refine ⟨truncWord_lt w _, ?_⟩
  have := groups_le w r.estep
  simp only [placeHalf, BitVec.toNat_ofNat]
  omega

theorem placeHalf_eg (w : Width) (half : Half) (h : Word) (r : EncRegs) :
    (placeHalf w half h r).eg.toNat = (bitGroupTable w r.estep).groups := by
  have := groups_le w r.estep
  simp only [placeHalf, BitVec.toNat_ofNat]
  omega

theorem halfStep_range (w : Width) (cap : Nat) (half : Half) (h : Word) (r : EncRegs) (out : Memory) :
    endsIn (fun r' _ => EncRange w r') (halfStep w cap half h r out) :=
  endsIn_andThen
    (flushGroups_range w cap _ _ out (placeHalf_eg w half h r).ge (placeHalf_range w half h r))
    (fun _ _ h => h) fun _ _ h => h

theorem finalFlush_range (w : Width) (cap k : Nat) (r : EncRegs) (out : Memory) (h : EncRange w r) :
    endsIn (fun r' _ => EncRange w r') (finalFlush cap k r out) := by
  induction k generalizing r out with
  | zero => exact h
  | succ k ih =>
    refine endsIn_andThen (Q := fun r' _ => EncRange w r') ?_ (fun _ _ h => h) fun r out h => ?_
    · refine endsIn_mono (emit_ends cap _ { r with eacc := r.eacc >>> 7 } out) fun r' _ e => ?_
      simpa only [EncRange, e.2.1, e.2.2.2.2.2] using ⟨shiftRight_lt h.1, h.2⟩
    · split
      · exact h
      · exact ih r out h

theorem innerWord_range (w : Width) (cap : Nat) (v : Word) (r : EncRegs) (out : Memory) :
    endsIn (fun r' _ => EncRange w r') (innerWord w cap v r out) :=
  endsIn_andThen (halfStep_range w cap .low _ r out) (fun _ _ h => h) fun r out _ =>
    endsIn_andThen (halfStep_range w cap .high _ r out) (fun _ _ h => h) fun _ _ h => h

theorem lastWord_range (w : Width) (cap : Nat) (v : Word) (r : EncRegs) (out : Memory) :
    endsIn (fun r' _ => EncRange w r') (lastWord w cap v r out) := by
  unfold lastWord
  split
  · exact finalFlush_range w cap 10 _ out (placeHalf_range w .low _ r)
  · exact endsIn_andThen (halfStep_range w cap .low _ r out) (fun _ _ h => h) fun r out _ =>
      finalFlush_range w cap 10 _ out (placeHalf_range w .high _ r)

theorem encodeWords_range (w : Width) (cap : Nat) (vs : List Word) (r : EncRegs) (out : Memory)
    (h : EncRange w r) : endsIn (fun r' _ => EncRange w r') (encodeWords w cap vs r out) := by
  induction vs generalizing r out with
  | nil => exact h
  | cons v vs ih =>
    cases vs with
    | nil => exact lastWord_range w cap v r out
    | cons v' vs => exact endsIn_andThen (innerWord_range w cap v r out) (fun _ _ h => h) ih

theorem startEncodeBig_range (w : Width) (r : EncRegs) : EncRange w (startEncodeBig w r) := by
  refine ⟨Nat.pow_pos (by norm_num), ?_⟩
  cases w
  · exact (by decide : (BitVec.ofNat 3 (bitGroupTable .w32 0).groups).toNat ≤ 5)
  · exact (by decide : (BitVec.ofNat 3 (bitGroupTable .w64 0).groups).toNat ≤ 5)

/-! ## The end of an encode -/

/-- Where an emission stands. -/
def endRegs : Emission → EncRegs
  | .going r _ => r
  | .raised r _ => r

theorem endsIn_endRegs {P : EncRegs → Prop} {e : Emission} (h : endsIn (fun r _ => P r) e) : P (endRegs e) := by
  cases e <;> exact h

/-- Everything the end of an encode does outside the buffer and the result ports. -/
theorem finishEncode_frame (s : State) (e : Emission) :
    SameInputs s (finishEncode s e) ∧ (finishEncode s e).phase = .idle ∧ (finishEncode s e).size = s.size ∧
      (finishEncode s e).dec = s.dec ∧ (finishEncode s e).enc = endRegs e ∧
      ∃ ok count, (finishEncode s e).res = { freeResults s.cfg.width s.draws with ok := ok, count := count } := by
  cases e with
  | going r out => exact ⟨⟨rfl, rfl, rfl, rfl, rfl, rfl, rfl⟩, rfl, rfl, rfl, rfl, true, r.epos, rfl⟩
  | raised r out =>
    exact ⟨⟨rfl, rfl, rfl, rfl, rfl, rfl, rfl⟩, rfl, rfl, rfl, rfl, false, Config.freeCount s.draws, rfl⟩

theorem failingPrefix_le (c : Config) (cap d : Nat) : failingPrefix c cap d ≤ cap := by
  unfold failingPrefix
  split
  · exact Nat.zero_le _
  · exact le_rfl
  · exact Nat.lt_succ_iff.1 (Nat.mod_lt _ (Nat.succ_pos _))

/-- What the end of an encode that started at offset 0 does to the buffer. -/
theorem finishEncode_out (s : State) (e : Emission) (h : Appends s.ports.cap 0 s.out e) :
    (∀ a, s.ports.cap ≤ a → readCell (finishEncode s e).out a = readCell s.out a) ∧
      ((finishEncode s e).res.ok = true → ∀ a, (finishEncode s e).res.count ≤ a →
        readCell (finishEncode s e).out a = readCell s.out a) ∧
      (Memory.wf s.out = true → Memory.wf (finishEncode s e).out = true) := by
  cases e with
  | going r out =>
    exact ⟨fun a ha => h.beyond a ((h.bounded (Nat.zero_le _)).trans ha), fun _ a ha => h.beyond a ha, h.canonical⟩
  | raised r out =>
    refine ⟨fun a ha => ?_, fun hk => absurd hk (by simp [finishEncode]), fun hw => keepPrefix_wf _ _ _ hw⟩
    have := failingPrefix_le s.cfg s.ports.cap s.draws
    simp only [finishEncode, raiseInsufficientCapacity_out, readCell_keepPrefix]
    rw [if_neg (by omega)]

/-- What ENC.U64 starts from. -/
def encodeU64Emission (s : State) : Emission :=
  encodeU64Loop s.ports.cap 10 (startEncodeU64 s.ports.val64 s.enc) s.out

/-- What ENC.BIG starts from. -/
def encodeBigEmission (s : State) : Emission :=
  if isZeroValue s then emit s.ports.cap 0x00 (startEncodeBig s.cfg.width s.enc) s.out
  else encodeWords s.cfg.width s.ports.cap (valueWords s) (startEncodeBig s.cfg.width s.enc) s.out

theorem encodeU64Emission_appends (s : State) : Appends s.ports.cap 0 s.out (encodeU64Emission s) :=
  encodeU64Loop_appends s.ports.cap 10 (startEncodeU64 s.ports.val64 s.enc) s.out

theorem encodeBigEmission_appends (s : State) : Appends s.ports.cap 0 s.out (encodeBigEmission s) := by
  unfold encodeBigEmission
  split
  · exact emit_appends s.ports.cap 0x00 (startEncodeBig s.cfg.width s.enc) s.out
  · exact encodeWords_appends s.cfg.width s.ports.cap _ (startEncodeBig s.cfg.width s.enc) s.out

theorem encodeBigEmission_range (s : State) :
    endsIn (fun r _ => EncRange s.cfg.width r) (encodeBigEmission s) := by
  have h := startEncodeBig_range s.cfg.width s.enc
  unfold encodeBigEmission
  split
  · refine endsIn_mono (emit_ends _ _ _ _) fun r' _ e => ?_
    simpa only [EncRange, e.2.1, e.2.2.2.2.2] using h
  · exact encodeWords_range s.cfg.width s.ports.cap _ _ s.out h

/-- ENC.U64 answers a next state exactly when its operands are in range, and then it is this one. -/
theorem execEncU64_eq (s : State) :
    execEncU64 s = match refusalEncU64 s with
      | some r => .refused r
      | none => .next (finishEncode s (encodeU64Emission s)) := rfl

/-- ENC.BIG answers a next state exactly when its operands are in range, and then it is this one. -/
theorem execEncBig_eq (s : State) :
    execEncBig s = match refusalEncBig s with
      | some r => .refused r
      | none => .next (finishEncode s (encodeBigEmission s)) := rfl

end Sys2Proof.Machine
end

