-- ==== Sys2Proof/Laws/PerInstr.lean ====
section
/-! SUPPORT. The family TableRow: every instruction is encoded as its row of spec/opcode_table.json says. -/
namespace Sys2Proof.Laws.TableRow

/-- The row's "mask". -/
def mask : Instr → Byte
  | .sizeU64 => 0x07
  | .sizeBig => 0x07
  | .encU64 => 0x07
  | .encBig => 0x07
  | .dec => 0x07
  | .decC => 0x07
  | .reserved6 => 0x07
  | .reserved7 => 0x07
  | .cont _ => 0x80
  | .term _ => 0x80

/-- The row's "match". -/
def matched : Instr → Byte
  | .sizeU64 => 0x00
  | .sizeBig => 0x01
  | .encU64 => 0x02
  | .encBig => 0x03
  | .dec => 0x04
  | .decC => 0x05
  | .reserved6 => 0x06
  | .reserved7 => 0x07
  | .cont _ => 0x80
  | .term _ => 0x00

/-- An instruction is one byte, which has the row's match under the row's mask. -/
def Statement (i : Instr) : Prop := (encode i).length = 1 ∧ ∀ b ∈ encode i, b &&& mask i = matched i

theorem sizeU64 : Statement .sizeU64 := ⟨rfl, by decide⟩
theorem sizeBig : Statement .sizeBig := ⟨rfl, by decide⟩
theorem encU64 : Statement .encU64 := ⟨rfl, by decide⟩
theorem encBig : Statement .encBig := ⟨rfl, by decide⟩
theorem dec : Statement .dec := ⟨rfl, by decide⟩
theorem decC : Statement .decC := ⟨rfl, by decide⟩
theorem reserved6 : Statement .reserved6 := ⟨rfl, by decide⟩
theorem reserved7 : Statement .reserved7 := ⟨rfl, by decide⟩
theorem cont (p : Payload) : Statement (.cont p) := ⟨rfl, by revert p; decide⟩
theorem term (p : Payload) : Statement (.term p) := ⟨rfl, by revert p; decide⟩

end Sys2Proof.Laws.TableRow
end

