-- ==== Sys2Proof/Laws/Step.lean ====
section
/-! SUPPORT. What each instruction and the step can answer, once for each. -/
namespace Sys2Proof.Machine

@[simp] theorem exec_sizeU64 (s : State) : exec .sizeU64 s = execSizeU64 s := rfl
@[simp] theorem exec_sizeBig (s : State) : exec .sizeBig s = execSizeBig s := rfl
@[simp] theorem exec_encU64 (s : State) : exec .encU64 s = execEncU64 s := rfl
@[simp] theorem exec_encBig (s : State) : exec .encBig s = execEncBig s := rfl
@[simp] theorem exec_dec (s : State) : exec .dec s = execDec s := rfl
@[simp] theorem exec_decC (s : State) : exec .decC s = execDecC s := rfl
@[simp] theorem exec_reserved6 (s : State) : exec .reserved6 s = .refused .badOp := rfl
@[simp] theorem exec_reserved7 (s : State) : exec .reserved7 s = .refused .badOp := rfl
@[simp] theorem exec_cont (p : Payload) (s : State) : exec (.cont p) s = execCont p s := rfl
@[simp] theorem exec_term (p : Payload) (s : State) : exec (.term p) s = execTerm p s := rfl

/-! ## SizeEstimator -/

theorem execSizeU64_next {s t : State} (h : execSizeU64 s = .next t) :
    t = doneSize s (sizeLoop 10 ⟨s.ports.val64, 0⟩) (sizeLoop 10 ⟨s.ports.val64, 0⟩).sn :=
  (Host.Outcome.next.inj h).symm

theorem execSizeBig_next {s t : State} (h : execSizeBig s = .next t) :
    refusalSizeBig s = none ∧ t = doneSize s s.size (sizeBigCount s) := by
  unfold execSizeBig at h
  split at h
  · simp at h
  · rename_i hr
    exact ⟨hr, (Host.Outcome.next.inj h).symm⟩

/-- The count never exceeds the iterations allowed. -/
theorem sizeLoop_sn_le (k : Nat) (r : SizeRegs) : (sizeLoop k r).sn ≤ r.sn + k := by
  induction k generalizing r with
  | zero => exact le_rfl
  | succ k ih =>
    unfold sizeLoop
    split
    · simp only; omega
    · have := ih ⟨r.sv >>> 7, r.sn + 1⟩
      simp only at this
      omega

/-! ## Encoder -/

theorem execEncU64_next {s t : State} (h : execEncU64 s = .next t) :
    OutputOwned s ∧ t = finishEncode s (encodeU64Emission s) := by
  rw [execEncU64_eq] at h
  split at h
  · simp at h
  · rename_i hr
    exact ⟨(refusalEncU64_eq_none s).1 hr, (Host.Outcome.next.inj h).symm⟩

theorem execEncBig_next {s t : State} (h : execEncBig s = .next t) :
    (FitsNmax s s.ports.nwords ∧ OutputOwned s ∧ NormalForm s) ∧ t = finishEncode s (encodeBigEmission s) := by
  rw [execEncBig_eq] at h
  split at h
  · simp at h
  · rename_i hr
    exact ⟨(refusalEncBig_eq_none s).1 hr, (Host.Outcome.next.inj h).symm⟩

/-! ## Decoder -/

/-- The end of a decode: one of the two forms, by the number of words. -/
theorem finishDecode_cases (s : State) (r : DecRegs) :
    finishDecode s r = doneDecodeU64 s r (res64OfWords s.cfg.width r) ∨ finishDecode s r = doneDecodeBig s r := by
  unfold finishDecode
  split
  · exact .inl rfl
  · exact .inr rfl

/-- The registers a decode ends with replace whatever stood there. -/
theorem finishDecode_withRegs (s : State) (q r : DecRegs) : finishDecode { s with dec := q } r = finishDecode s r := by
  unfold finishDecode
  dsimp only
  cases kindOfWords s.cfg.width r.dnw <;> rfl

theorem takeCont_next {p : Payload} {s t : State} (h : takeCont p s = .next t) :
    ∃ r, byteStep s.cfg.width s.cfg.nmax p (nextIndex s.dec) = some r ∧ t = { s with dec := r } := by
  unfold takeCont at h
  split at h
  · simp at h
  · rename_i r hr
    exact ⟨r, hr, (Host.Outcome.next.inj h).symm⟩

theorem takeTerm_next {p : Payload} {s t : State} (h : takeTerm p s = .next t) :
    ∃ r r', byteStep s.cfg.width s.cfg.nmax p (nextIndex s.dec) = some r ∧
      terminate s.cfg.nmax r = some r' ∧ t = finishDecode s r' := by
  unfold takeTerm at h
  split at h
  · simp at h
  · rename_i r hr
    split at h
    · simp at h
    · rename_i r' hr'
      exact ⟨r, r', hr, hr', (Host.Outcome.next.inj h).symm⟩

/-- A byte is refused for want of a word only. -/
theorem takeCont_refused {p : Payload} {s : State} {e : Refusal} (h : takeCont p s = .refused e) :
    e = .nmaxExceeded := by
  unfold takeCont at h
  split at h
  · exact (Host.Outcome.refused.inj h).symm
  · simp at h

theorem takeTerm_refused {p : Payload} {s : State} {e : Refusal} (h : takeTerm p s = .refused e) :
    e = .nmaxExceeded := by
  unfold takeTerm at h
  split at h
  · exact (Host.Outcome.refused.inj h).symm
  · split at h
    · exact (Host.Outcome.refused.inj h).symm
    · simp at h

theorem refusalByte_eq_none (s : State) : refusalByte s = none ↔ s.phase = .decoding ∧ InputOwned s := by
  unfold refusalByte
  split <;> simp_all [refusalDec_eq_none]

/-- Why a micro-step of a decode is refused before it runs. -/
theorem refusalByte_eq_some {s : State} {e : Refusal} (h : refusalByte s = some e) :
    s.phase = .idle ∧ e = .noDecodeInProgress ∨
      s.phase = .decoding ∧
        (e = .bufferBounds ∧ s.inSize < s.ports.len ∨ e = .bufferShared ∧ s.contended = true) := by
  unfold refusalByte at h
  split at h
  · rename_i hp
    exact .inl ⟨hp, (Option.some.inj h).symm⟩
  · rename_i hp
    have := firstRefusal_eq_some _ _ h
    simp only [List.mem_cons, Prod.mk.injEq, List.not_mem_nil, or_false, eq_comm (a := true), decide_eq_true_eq] at this
    exact .inr ⟨hp, this.imp And.symm And.symm⟩

theorem execCont_eq {p : Payload} {s : State} (hp : s.phase = .decoding) (hi : InputOwned s) :
    execCont p s = takeCont p s := by
  rw [execCont, (refusalByte_eq_none s).2 ⟨hp, hi⟩]

theorem execTerm_eq {p : Payload} {s : State} (hp : s.phase = .decoding) (hi : InputOwned s) :
    execTerm p s = takeTerm p s := by
  rw [execTerm, (refusalByte_eq_none s).2 ⟨hp, hi⟩]

theorem exhaustInput_eq {s : State} (hp : s.phase = .decoding) (hi : InputOwned s) :
    exhaustInput s = .next (raiseUnterminated s) := by
  rw [exhaustInput, (refusalByte_eq_none s).2 ⟨hp, hi⟩]

theorem execCont_next {p : Payload} {s t : State} (h : execCont p s = .next t) :
    (s.phase = .decoding ∧ InputOwned s) ∧ takeCont p s = .next t := by
  unfold execCont at h
  split at h
  · simp at h
  · rename_i hr
    exact ⟨(refusalByte_eq_none s).1 hr, h⟩

theorem execTerm_next {p : Payload} {s t : State} (h : execTerm p s = .next t) :
    (s.phase = .decoding ∧ InputOwned s) ∧ takeTerm p s = .next t := by
  unfold execTerm at h
  split at h
  · simp at h
  · rename_i hr
    exact ⟨(refusalByte_eq_none s).1 hr, h⟩

theorem exhaustInput_next {s t : State} (h : exhaustInput s = .next t) :
    (s.phase = .decoding ∧ InputOwned s) ∧ t = raiseUnterminated s := by
  unfold exhaustInput at h
  split at h
  · simp at h
  · rename_i hr
    exact ⟨(refusalByte_eq_none s).1 hr, (Host.Outcome.next.inj h).symm⟩

/-- Everything the loop of a decode can answer: it raised Unterminated, or it ended with words; its registers are in
range throughout when they are in range at its start. -/
theorem decodeLoop_next {k : Nat} {s t : State} (hr : DecRange s.cfg.width s.cfg.nmax s.dec)
    (hb : DecBetween s.cfg.width s.dec) (h : decodeLoop k s = .next t) :
    ∃ r, DecRange s.cfg.width s.cfg.nmax r ∧
      (t = raiseUnterminated { s with dec := r } ∨ t = finishDecode { s with dec := r } r) := by
  induction k generalizing s with
  | zero => exact ⟨s.dec, hr, .inl (Host.Outcome.next.inj h).symm⟩
  | succ k ih =>
    unfold decodeLoop at h
    split at h
    · split at h
      · split at h
        · rename_i u hu
          obtain ⟨r, hs, rfl⟩ := takeCont_next hu
          obtain ⟨hr', hb'⟩ := byteStep_range hr.nextIndex hb.nextIndex hs
          exact ih (s := { s with dec := r }) hr' hb' h
        · simp at h
        · simp at h
      · obtain ⟨r, r', hs, ht, rfl⟩ := takeTerm_next h
        obtain ⟨hr', -⟩ := byteStep_range hr.nextIndex hb.nextIndex hs
        exact ⟨r', terminate_range hr' ht, .inr (finishDecode_withRegs s r' r').symm⟩
    · exact ⟨s.dec, hr, .inl (Host.Outcome.next.inj h).symm⟩

theorem decodeLoop_refused {k : Nat} {s : State} {e : Refusal} (h : decodeLoop k s = .refused e) :
    e = .nmaxExceeded := by
  induction k generalizing s with
  | zero => simp [decodeLoop] at h
  | succ k ih =>
    unfold decodeLoop at h
    split at h
    · split at h
      · split at h
        · exact ih h
        · simp at h
        · rename_i r hr
          exact Host.Outcome.refused.inj h ▸ takeCont_refused hr
      · exact takeTerm_refused h
    · simp at h

theorem beginDecode_eq_some {pv : BitVec 64} {pb : BitVec 7} {s b : State} (h : beginDecode pv pb s = some b) :
    ∃ r, seed s.cfg.width s.cfg.nmax pv pb s.dec = some r ∧ b = { s with phase := .decoding, dec := r } := by
  unfold beginDecode at h
  split at h
  · simp at h
  · rename_i r hr
    exact ⟨r, hr, (Option.some.inj h).symm⟩

/-- Everything a whole decode can answer. -/
theorem runDecode_next {pv : BitVec 64} {pb : BitVec 7} {s t : State} (hpb : pb.toNat ≤ 64)
    (h : runDecode pv pb s = .next t) :
    ∃ r, DecRange s.cfg.width s.cfg.nmax r ∧
      (t = raiseUnterminated { s with phase := .decoding, dec := r } ∨
        t = finishDecode { s with phase := .decoding, dec := r } r) := by
  unfold runDecode at h
  split at h
  · simp at h
  · rename_i b hb
    obtain ⟨r, hs, rfl⟩ := beginDecode_eq_some hb
    obtain ⟨h1, h2, -⟩ := seed_range hpb hs
    exact decodeLoop_next (s := { s with phase := .decoding, dec := r }) h1 h2 h

theorem execDec_next {s t : State} (h : execDec s = .next t) : InputOwned s ∧ runDecode 0 0 s = .next t := by
  unfold execDec at h
  split at h
  · simp at h
  · rename_i hr
    exact ⟨(refusalDec_eq_none s).1 hr, h⟩

theorem execDecC_next {s t : State} (h : execDecC s = .next t) :
    (s.ports.preBits.toNat ≤ 64 ∧ InputOwned s) ∧ runDecode s.ports.preValue s.ports.preBits s = .next t := by
  unfold execDecC at h
  split at h
  · simp at h
  · rename_i hr
    exact ⟨(refusalDecC_eq_none s).1 hr, h⟩

/-! ## The step -/

theorem decode_cmd_op (op : BitVec 3) : decode .cmd [op.setWidth 8] = .ok (decodeOp op, []) := by
  revert op
  decide

theorem fetch_idle {s : State} (h : s.phase = .idle) : fetch s = some (decodeOp s.ports.op) := by
  simp only [fetch, h, decode_cmd_op, decodedInstr]

theorem fetch_decoding {s : State} (h : s.phase = .decoding) (hd : s.dec.di < s.ports.len) :
    fetch s = some (decodeWire (readInput s s.dec.di)) := by
  simp only [fetch, h, if_pos hd, decode, decodedInstr]

theorem fetch_exhausted {s : State} (h : s.phase = .decoding) (hd : s.ports.len ≤ s.dec.di) : fetch s = none := by
  simp only [fetch, h, if_neg (Nat.not_lt.2 hd)]

theorem decodeWire_eq (b : Byte) : decodeWire b = if contFlag b then .cont (payload b) else .term (payload b) := rfl

/-- Everything a step can do: an operation, a wire byte, or the end of an input that is used up. -/
theorem step_cases (s : State) :
    (s.phase = .idle ∧ step s = exec (decodeOp s.ports.op) s) ∨
      (s.phase = .decoding ∧ s.dec.di < s.ports.len ∧ step s = exec (decodeWire (readInput s s.dec.di)) s) ∨
      (s.phase = .decoding ∧ s.ports.len ≤ s.dec.di ∧ step s = exhaustInput s) := by
  cases hp : s.phase with
  | idle => exact .inl ⟨rfl, by rw [step, fetch_idle hp]⟩
  | decoding =>
    rcases Nat.lt_or_ge s.dec.di s.ports.len with hd | hd
    · exact .inr (.inl ⟨rfl, hd, by rw [step, fetch_decoding hp hd]⟩)
    · exact .inr (.inr ⟨rfl, hd, by rw [step, fetch_exhausted hp hd]⟩)

end Sys2Proof.Machine
end

