-- ==== Sys2Proof/Tests/Slice0.lean ====
section
/-! SUPPORT. Tests: decoding of words written out from the spec, ill-formed terms, the spec's own vectors, and a witness for
every statement that has hypotheses. -/
namespace Sys2Proof.Tests

open Sys2Proof.Machine

/-! ## Encodings (30 R70, R71, R78) and ill-formed terms (R79) -/

/-- `OP = 0b000` is SIZE.U64, `0b001` SIZE.BIG (R78). -/
theorem test_decode_size : decodeOp 0b000 = .sizeU64 ∧ decodeOp 0b001 = .sizeBig := by decide

/-- `OP = 0b010` is ENC.U64, `0b011` ENC.BIG (R78). -/
theorem test_decode_enc : decodeOp 0b010 = .encU64 ∧ decodeOp 0b011 = .encBig := by decide

/-- `OP = 0b100` is DEC, `0b101` DEC.C (R78). -/
theorem test_decode_dec : decodeOp 0b100 = .dec ∧ decodeOp 0b101 = .decC := by decide

/-- `0b110` and `0b111` are reserved (R79). -/
theorem test_decode_reserved : decodeOp 0b110 = .reserved6 ∧ decodeOp 0b111 = .reserved7 := by decide

/-- P1 of 95: `0xAC` is CONT with payload `0x2C`, `0x02` is TERM with payload `0x02`. -/
theorem test_decode_wire : decodeWire 0xAC = .cont 0x2C ∧ decodeWire 0x02 = .term 0x02 := by decide

/-- R71: the ends of the two classes. -/
theorem test_decode_wire_ends :
    decodeWire 0x80 = .cont 0 ∧ decodeWire 0xFF = .cont 0x7F ∧ decodeWire 0x00 = .term 0 ∧ decodeWire 0x7F = .term 0x7F := by
  decide

/-- The decoder rejects by name: no byte, a command of more than 3 bits. -/
theorem test_decode_rejects :
    decode .wire [] = .error .noByte ∧ decode .cmd [0x08] = .error .opTooWide := ⟨rfl, rfl⟩

/-- WellFormed refuses the reserved codes, and nothing else of this list. -/
theorem test_wellFormed_smoke :
    Instr.reserved6.wellFormed = false ∧ Instr.reserved7.wellFormed = false ∧ (Instr.term 0).wellFormed = true := by decide

/-- The numbers of the opcode table; a number two rows share is the `OP` code (log 12). -/
theorem test_decodeTableWord :
    decodeTableWord 3 5 = some .decC ∧ decodeTableWord 8 0x80 = some (.cont 0) ∧
      decodeTableWord 8 0x31 = some (.term 0x31) ∧ decodeTableWord 8 0 = some .sizeU64 := by decide

/-! ## Small states -/

/-- A build of width `w` whose failing encodes write the whole buffer. -/
def build (w : Width) : State := { State.reset with cfg := { width := w, nmax := none, failPrefix := .full } }

/-- The same build with at most `n` words. -/
def capped (w : Width) (n : Nat) (s : State) : State := { s with cfg := { s.cfg with width := w, nmax := some n } }

def bytesAt (l : List Byte) : Memory := writeFrom [] 0 l

/-- A value on `VAL64` and an output buffer of `cap` bytes, all `0xAA` before. -/
def withU64 (w : Width) (v : BitVec 64) (cap : Nat) : State :=
  { build w with
    out := bytesAt (List.replicate cap 0xAA)
    outSize := cap
    ports := { State.reset.ports with val64 := v, cap := cap } }

/-- The same with a value of words. -/
def withWords (w : Width) (ws : List Word) (cap : Nat) : State :=
  { build w with
    vw := writeFrom [] 0 ws
    out := bytesAt (List.replicate cap 0xAA)
    outSize := cap
    ports := { State.reset.ports with nwords := ws.length, cap := cap } }

/-- Input bytes and a seed. -/
def withInput (w : Width) (l : List Byte) (pv : BitVec 64) (pb : BitVec 7) : State :=
  { build w with
    inp := bytesAt l
    inSize := l.length
    ports := { State.reset.ports with len := l.length, preValue := pv, preBits := pb } }

/-- A decode in progress with an accumulator and an offset. -/
def inDecode (s : State) (acc : Word) (off : BitVec 7) : State :=
  { s with phase := .decoding, dec := { s.dec with dacc := acc, doff := off } }

/-- What the host reads after an encode: `OK`, `COUNT`, the bytes of the buffer at some offsets. -/
def encodedAt (l : List Nat) (o : Host.Outcome State Fault Refusal) : Option (Bool × Nat × List Byte) :=
  match o with
  | .next t => some (t.res.ok, t.res.count, l.map (readCell t.out))
  | _ => none

/-- What the host reads after a failing encode: `OK`, the first `n` bytes. -/
def failed (n : Nat) (o : Host.Outcome State Fault Refusal) : Option (Bool × List Byte) :=
  match o with
  | .next t => some (t.res.ok, (List.range n).map (readCell t.out))
  | _ => none

def counted (o : Host.Outcome State Fault Refusal) : Option Nat :=
  match o with
  | .next t => some t.res.count
  | _ => none

/-- A 64-bit result. -/
def gotU64 (o : Host.Outcome State Fault Refusal) : Option (Bool × ResultKind × BitVec 64 × Nat) :=
  match o with
  | .next t => some (t.res.ok, t.res.kind, t.res.res64, t.res.count)
  | _ => none

/-- A word-sequence result. -/
def gotBig (n : Nat) (o : Host.Outcome State Fault Refusal) : Option (Bool × ResultKind × List Word × Nat × Nat) :=
  match o with
  | .next t => some (t.res.ok, t.res.kind, (List.range n).map (readCell t.res.rw), t.res.resNW, t.res.count)
  | _ => none

/-- An error: `OK` and `COUNT`. -/
def gotError (o : Host.Outcome State Fault Refusal) : Option (Bool × Nat) :=
  match o with
  | .next t => some (t.res.ok, t.res.count)
  | _ => none

def refusal (o : Host.Outcome State Fault Refusal) : Option Refusal :=
  match o with
  | .refused r => some r
  | _ => none

/-! ## The spec's vectors (95_test_vectors.md) -/

/-- 95, 2.1: `2^63 - 1` is 9 bytes, `2^63` is 10. -/
theorem test_sizeU64_top :
    counted (exec .sizeU64 (withU64 .w64 0x7FFFFFFFFFFFFFFF 0)) = some 9 ∧
      counted (exec .sizeU64 (withU64 .w32 0x8000000000000000 0)) = some 10 := by decide

/-- S1, S3: 0 is 1 byte, 128 is 2. -/
theorem test_sizeU64_small :
    counted (exec .sizeU64 (withU64 .w64 0 0)) = some 1 ∧ counted (exec .sizeU64 (withU64 .w64 128 0)) = some 2 := by
  decide

/-- 95, 2.1: `{0, 1}` is 10 bytes with 64-bit words and 5 with 32-bit words (C1). -/
theorem test_sizeBig_words :
    counted (exec .sizeBig (withWords .w64 [0, 1] 0)) = some 10 ∧
      counted (exec .sizeBig (withWords .w32 [0, 1] 0)) = some 5 := by decide

/-- 95, 2.1: `{5, 0}` is refused. -/
theorem test_sizeBig_nonNormal :
    refusal (exec .sizeBig (withWords .w64 [5, 0] 0)) = some .nonNormalValue := by decide

/-- S4: 104543565 into a buffer of exactly 4 bytes. -/
theorem test_encU64_source :
    encodedAt [0, 1, 2, 3] (exec .encU64 (withU64 .w64 104543565 4)) = some (true, 4, [0xCD, 0xEA, 0xEC, 0x31]) := by decide

/-- S8: 128 into a 1-byte buffer, policy FULL: not ok, `0x80` written, nothing at or beyond the capacity. -/
theorem test_encU64_full :
    failed 3 (exec .encU64 (withU64 .w64 128 1)) = some (false, [0x80, 0x00, 0x00]) := by decide

/-- 95, 2.3: three 64-bit words, 27 bytes, table steps 0 to 5: the first and last byte of each half's groups. -/
theorem test_encBig_threeWords :
    encodedAt [0, 3, 4, 8, 9, 12, 13, 17, 18, 21, 22, 26] (exec .encBig
      (withWords .w64 [0xF0E1D2C3B4A59687, 0xFEDCBA9876543210, 0x0123456789ABCDEF] 27)) =
      some (true, 27, [0x87, 0xA5, 0xBB, 0xF0, 0xA1, 0xE5, 0x8E, 0xFD, 0xBF, 0xB5, 0xE2, 0x04]) := by decide

/-- 95, 2.3: eight 32-bit words, 37 bytes: the step counter wraps from 13 to 0 before byte 32. -/
theorem test_encBig_wrap :
    encodedAt [0, 17, 18, 31, 32, 33, 34, 35, 36] (exec .encBig (withWords .w32
      [0x11111111, 0x22222222, 0x33333333, 0x44444444, 0x55555555, 0x66666666, 0x77777777, 0x88888888] 37)) =
      some (true, 37, [0x91, 0x88, 0xD5, 0xBB, 0x88, 0x91, 0xA2, 0xC4, 0x08]) := by decide +kernel

/-- 95, 2.5: `[0x80 x9, 0x02]` is `BIG {0, 1}` with 64-bit words. -/
theorem test_dec_big :
    gotBig 2 (exec .dec (withInput .w64 (List.replicate 9 0x80 ++ [0x02]) 0xFF 4)) =
      some (true, .big, [0, 1], 2, 10) := by decide

/-- 95, 2.5: `[0x81, 0x80 x12, 0x00]` is `BIG {1, 0, 0}` with 32-bit words, its high zero words kept (D16). -/
theorem test_dec_nonCanonical :
    gotBig 3 (exec .dec (withInput .w32 (0x81 :: List.replicate 12 0x80 ++ [0x00]) 0 0)) =
      some (true, .big, [1, 0, 0], 3, 14) := by decide

/-- S7: `[0x01]` with pre-value 5 of 4 bits is 21. -/
theorem test_decC_source :
    gotU64 (exec .decC (withInput .w64 [0x01] 5 4)) = some (true, .u64, 21, 1) := by decide

/-- 95, 2.5: `[0x05]` with pre-value `0x1FFFFFFFF` of 33 bits, 32-bit words: the seed spills one word. -/
theorem test_decC_spill :
    gotU64 (exec .decC (withInput .w32 [0x05] 0x1FFFFFFFF 33)) = some (true, .u64, 0xBFFFFFFFF, 1) := by decide

/-- 95, 2.5: `[0x80, 0x80]` is Unterminated; a seed of 65 bits is refused. -/
theorem test_dec_errors :
    gotError (exec .dec (withInput .w64 [0x80, 0x80] 0 0)) = some (false, 0) ∧
      refusal (exec .decC (withInput .w64 [0x00] 0 65)) = some .preBitsRange := by decide

/-- R79. -/
theorem test_reserved :
    refusal (exec .reserved6 State.reset) = some .badOp ∧ refusal (exec .reserved7 State.reset) = some .badOp := by decide

/-- The decoder's registers after a CONT: `dacc`, `doff`, `dws`, `di`. -/
def gotRegs (o : Host.Outcome State Fault Refusal) : Option (Word × BitVec 7 × List Word × Nat) :=
  match o with
  | .next t => some (t.dec.dacc, t.dec.doff, t.dec.dws, t.dec.di)
  | _ => none

/-- R144, worked: payload `0x7F` at offset 60 of a full accumulator closes the word out, 3 bits overflow (95, 2.5). -/
theorem test_cont_closes :
    gotRegs (exec (.cont 0x7F) (inDecode (build .w64) 0x0FFFFFFFFFFFFFFF 60)) =
      some (0x7, 3, [0xFFFFFFFFFFFFFFFF], 1) := by decide

/-- R144: `doff + 7 = W` exactly closes the word out with nothing left (43 R159). -/
theorem test_cont_exact :
    gotRegs (exec (.cont 0x7F) (inDecode (build .w32) 0x1FFFFFF 25)) = some (0, 0, [0xFFFFFFFF], 1) := by decide

/-- R145: a trailing accumulator of a decode in progress is one more word (43 R149, the last byte). -/
theorem test_term_trailing :
    gotBig 2 (exec (.term 2) (inDecode (build .w64) 0 63)) = some (true, .big, [0, 1], 2, 1) := by decide

/-- 20 R66: a decode in progress that another agent touches is refused, also when its input is used up. -/
theorem test_shared_decode :
    refusal (exec (.term 2) { inDecode (build .w64) 0 0 with contended := true }) = some .bufferShared ∧
      refusal (step { inDecode (build .w64) 0 0 with contended := true }) = some .bufferShared := by decide

/-- 20 R66: SIZE.BIG of words that another agent touches is refused. -/
theorem test_shared_sizeBig :
    refusal (exec .sizeBig { withWords .w64 [0, 1] 0 with contended := true }) = some .bufferShared := by decide

/-- Log 8: outside a decode a wire byte is refused. -/
theorem test_term_idle : refusal (exec (.term 2) (build .w64)) = some .noDecodeInProgress := by decide

/-- A step from reset runs the instruction placed for it: an operation, a wire byte. -/
theorem test_step_placed :
    counted (step (State.reset.withFetchWord 3 0)) = some 1 ∧
      gotU64 (step (State.reset.withFetchWord 8 0x31)) = some (true, .u64, 0x31, 1) ∧
      gotRegs (step (State.reset.withFetchWord 8 0x80)) = some (0, 7, [], 1) := by decide

/-! ## Witnesses: states and operands that meet the hypotheses of each statement -/

theorem fitsNmax_unbounded (w : Width) (n : Nat) (s : State) (h : s.cfg = (build w).cfg) : FitsNmax s n := by
  intro k hk
  rw [h] at hk
  exact absurd hk (by simp [build])

/-- 16383 on both paths into exactly the 2 bytes it needs, of a larger buffer; the witness of every statement about an
encode that succeeds. -/
def wEnc : State :=
  { withWords .w64 [16383] 5 with
    ports := { op := 2, val64 := 16383, nwords := 1, cap := 2, len := 0, preValue := 0, preBits := 0 } }

theorem wEnc_u64 : EncodeRequest .encU64 wEnc 16383 := ⟨⟨by decide, rfl⟩, .inl ⟨rfl, by decide⟩⟩

theorem wEnc_big : EncodeRequest .encBig wEnc 16383 :=
  ⟨⟨by decide, rfl⟩, .inr ⟨rfl, by decide, fun h => absurd h (by decide), fitsNmax_unbounded .w64 _ _ rfl⟩⟩

/-- `2^64` into 9 bytes, one too few, under each policy. -/
def wFail (f : FailPrefix) : State :=
  { withWords .w64 [0, 1] 9 with cfg := { width := .w64, nmax := none, failPrefix := f } }

theorem wFail_big (f : FailPrefix) : EncodeRequest .encBig (wFail f) (2 ^ 64) :=
  ⟨⟨by cases f <;> decide, rfl⟩, .inr ⟨rfl, by cases f <;> decide, fun _ => by cases f <;> decide,
    fun _ hk => by simp [wFail] at hk⟩⟩

/-- Three bytes with a seed of 4 bits whose terminator is the second. -/
def wDec (w : Width) : State := withInput w [0x81, 0x02, 0xFF] 5 4

theorem wDec_request (w : Width) : DecodeRequest .decC (wDec w) 5 4 :=
  ⟨⟨by cases w <;> decide, rfl⟩, .inr ⟨rfl, rfl, rfl, by decide⟩⟩

theorem wDec_terminator (w : Width) : TerminatorAt (wDec w) 1 := by
  refine ⟨by cases w <;> decide, by cases w <;> decide, fun j hj => ?_⟩
  obtain rfl : j = 0 := by omega
  cases w <;> decide

/-- No terminator. -/
def wOpen : State := withInput .w64 [0x80, 0x80] 5 4

theorem wOpen_request : DecodeRequest .decC wOpen 5 4 := ⟨⟨by decide, rfl⟩, .inr ⟨rfl, rfl, rfl, by decide⟩⟩

theorem wOpen_noTerminator : NoTerminator wOpen := by
  intro j hj
  have hj : j < 2 := hj
  interval_cases j <;> decide

theorem wOpen_dec : DecodeRequest .dec wOpen 0 0 := ⟨⟨by decide, rfl⟩, .inl ⟨rfl, rfl, rfl⟩⟩

/-- A decode in progress: 3 bits taken in. -/
def wIn (w : Width) : State := inDecode (withInput w [0x81, 0x02] 0 0) 5 3

theorem wIn_inv (w : Width) : Inv (wIn w) := by
  cases w <;>
  exact
    { vwCanonical := rfl, outCanonical := rfl, inpCanonical := by decide, rwCanonical := rfl
      rwWords := fun _ => Nat.pow_pos (by decide)
      snRange := by decide, egRange := by decide, eaccWord := by decide, daccWord := by decide
      dwsWords := fun v hv => absurd hv (by simp [wIn, inDecode, withInput, build, State.reset])
      dnwLength := rfl, dwsNmax := fun _ _ => Nat.zero_le _
      doffRange := fun _ => by decide, daccBelow := fun _ => by decide, diRange := fun _ => by decide
      lenOwned := fun _ => by decide }

theorem witness_IdleStepRunsTheOperationOnOp :
    (build .w64).phase = .idle ∧ decode .cmd [(build .w64).ports.op.setWidth 8] = .ok (.sizeU64, []) := ⟨rfl, rfl⟩

theorem witness_DecodingStepRunsTheNextInputByte :
    (wIn .w64).phase = .decoding ∧ (wIn .w64).dec.di < (wIn .w64).ports.len ∧
      decode .wire [readInput (wIn .w64) (wIn .w64).dec.di] = .ok (.cont 1, []) := ⟨rfl, by decide, by rfl⟩

theorem witness_DecodingStepWithoutInputIsUnterminated :
    (inDecode (build .w64) 0 0).phase = .decoding ∧ InputOwned (inDecode (build .w64) 0 0) ∧
      (inDecode (build .w64) 0 0).ports.len ≤ (inDecode (build .w64) 0 0).dec.di :=
  ⟨rfl, ⟨by decide, rfl⟩, by decide⟩

/-- The last input byte. -/
theorem witness_DecodingStepRunsTheNextInputByte_last :
    let s := { wIn .w64 with dec := { (wIn .w64).dec with di := 1 } }
    s.phase = .decoding ∧ s.dec.di < s.ports.len ∧ decode .wire [readInput s s.dec.di] = .ok (.term 2, []) :=
  ⟨rfl, by decide, by rfl⟩

theorem witness_SizeBigCountsTheGroups_value :
    FitsNmax (withWords .w64 [0, 1] 0) 2 ∧ (withWords .w64 [0, 1] 0).contended = false ∧
      NormalForm (withWords .w64 [0, 1] 0) :=
  ⟨fitsNmax_unbounded .w64 _ _ rfl, rfl, fun _ => by decide⟩

theorem witness_SizeBigCountsTheGroups_nonNormal :
    FitsNmax (withWords .w64 [5, 0] 0) 2 ∧ (withWords .w64 [5, 0] 0).contended = false ∧
      ¬ NormalForm (withWords .w64 [5, 0] 0) :=
  ⟨fitsNmax_unbounded .w64 _ _ rfl, rfl, fun h => h (by decide) (by decide)⟩

theorem witness_SizePathsAgree :
    NormalForm wEnc ∧ FitsNmax wEnc wEnc.ports.nwords ∧ wEnc.contended = false ∧
      wEnc.ports.val64.toNat = bigValue wEnc :=
  ⟨fun h => absurd h (by decide), fitsNmax_unbounded .w64 _ _ rfl, rfl, by decide⟩

theorem witness_SizeIsTheCountOfTheEncode :
    (∃ t, EncodeRequest .encU64 wEnc 16383 ∧ exec .encU64 wEnc = .next t ∧ t.res.ok = true) ∧
      ∃ t, EncodeRequest .encBig wEnc 16383 ∧ exec .encBig wEnc = .next t ∧ t.res.ok = true :=
  ⟨⟨_, wEnc_u64, rfl, by decide⟩, ⟨_, wEnc_big, rfl, by decide⟩⟩

theorem witness_EncodeWritesTheCanonicalForm :
    EncodeRequest .encU64 wEnc 16383 ∧ EncodeRequest .encBig wEnc 16383 ∧ canonicalLength 16383 ≤ wEnc.ports.cap ∧
      EncodeRequest .encBig (wFail .any) (2 ^ 64) ∧ (wFail .any).ports.cap < canonicalLength (2 ^ 64) :=
  ⟨wEnc_u64, wEnc_big, by decide, wFail_big .any, by decide⟩

theorem witness_FailingEncodeLeavesAPrefix (f : FailPrefix) :
    EncodeRequest .encBig (wFail f) (2 ^ 64) ∧ (wFail f).ports.cap < canonicalLength (2 ^ 64) ∧
      (wFail f).cfg.failPrefix = f :=
  ⟨wFail_big f, by cases f <;> decide, rfl⟩

theorem witness_EncodeChangesOnlyItsBufferAndPorts :
    (∃ t, exec .encU64 wEnc = .next t ∧ t.res.ok = true) ∧ ∃ t, exec .encBig (wFail .full) = .next t :=
  ⟨⟨_, rfl, by decide⟩, ⟨_, rfl⟩⟩

theorem witness_EncodePathsAgree :
    EncodeRequest .encU64 wEnc 16383 ∧ EncodeRequest .encBig wEnc 16383 ∧ canonicalLength 16383 ≤ wEnc.ports.cap :=
  ⟨wEnc_u64, wEnc_big, by decide⟩

theorem witness_EncodeSetsTheFlagOnAllButTheLastByte :
    (∃ t, EncodeRequest .encU64 wEnc 16383 ∧ exec .encU64 wEnc = .next t ∧ t.res.ok = true) ∧
      ∃ t, EncodeRequest .encBig (wFail .full) (2 ^ 64) ∧ exec .encBig (wFail .full) = .next t ∧ t.res.ok = false ∧
        readCell t.out 2 ≠ readCell (wFail .full).out 2 :=
  ⟨⟨_, wEnc_u64, rfl, by decide⟩, ⟨_, wFail_big .full, rfl, by decide, by decide⟩⟩

/-- Step 5 of the 64-bit table: 6 remainder bits, all set, below a half whose bits are all set. -/
theorem witness_HalfStepLosesNoBit :
    let r : EncRegs := { State.reset.enc with eacc := 63, estep := 5 }
    r.eacc.toNat < 2 ^ (bitGroupTable .w64 r.estep).shift ∧ (0xFFFFFFFF : Word).toNat < 2 ^ Width.w64.half ∧
      r.epos + (bitGroupTable .w64 r.estep).groups ≤ 5 := by decide

theorem witness_SeedMasksAndSpills :
    (64 : BitVec 7).toNat ≤ 64 ∧ FitsNmax (capped .w32 2 (build .w32)) ((64 : BitVec 7).toNat / Width.w32.bits) :=
  ⟨by decide, fun k hk => by obtain rfl := Option.some.inj hk; decide⟩

/-- The seed sizes about the word width of a 32-bit build. -/
theorem witness_SeedMasksAndSpills_boundary :
    (31 : BitVec 7).toNat / Width.w32.bits = 0 ∧ (32 : BitVec 7).toNat / Width.w32.bits = 1 ∧
      (32 : BitVec 7).toNat ≤ 64 ∧ ∀ n, FitsNmax (build .w32) n :=
  ⟨by decide, by decide, by decide, fun _ => fitsNmax_unbounded .w32 _ _ rfl⟩

theorem witness_ContAccumulatesItsPayload :
    (wIn .w32).phase = .decoding ∧ InputOwned (wIn .w32) ∧ (wIn .w32).dec.di < (wIn .w32).ports.len ∧
      (wIn .w32).dec.doff.toNat < (wIn .w32).cfg.width.bits ∧ ∀ n, FitsNmax (wIn .w32) n :=
  ⟨rfl, ⟨by decide, rfl⟩, by decide, by decide, fun _ => fitsNmax_unbounded .w32 _ _ rfl⟩

theorem witness_TermDeliversTheWords :
    Inv (wIn .w64) ∧ (wIn .w64).phase = .decoding ∧ InputOwned (wIn .w64) ∧ (wIn .w64).dec.di < (wIn .w64).ports.len ∧
      [29] = wordsAtEnd (wordsAfter .w64 (wordNumbers (wIn .w64).dec) 5 3 3) (accAfter .w64 5 3 3) ∧
      FitsNmax (wIn .w64) 1 :=
  ⟨wIn_inv .w64, rfl, ⟨by decide, rfl⟩, by decide, by decide, fitsNmax_unbounded .w64 _ _ rfl⟩

/-- One bit below the boundary nothing is closed out, at it a word is (25 + 7 = 32). -/
theorem witness_ContAccumulatesItsPayload_boundary :
    wordsAfter .w32 [] 1 24 0x7F = [] ∧ (wordsAfter .w32 [] 1 25 0x7F).length = 1 ∧
      (∀ off ∈ [24, 25], let s := inDecode (withInput .w32 [0xFF] 0 0) 1 off
        s.dec.di < s.ports.len ∧ s.ports.len ≤ s.inSize ∧ s.dec.doff.toNat < Width.w32.bits) := by decide

/-- A decode in progress with words closed out, nothing in the accumulator. -/
def wWords (w : Width) (ws : List Word) : State :=
  { wIn w with dec := { (wIn w).dec with dacc := 0, dws := ws, dnw := ws.length } }

theorem wWords_inv (w : Width) (ws : List Word) (h : ∀ v ∈ ws, v.toNat < 2 ^ w.bits) : Inv (wWords w ws) :=
  { wIn_inv w with
    daccWord := Nat.pow_pos (by decide)
    dwsWords := h
    dnwLength := rfl
    dwsNmax := fitsNmax_unbounded w _ _ rfl
    daccBelow := fun _ => Nat.pow_pos (by decide) }

/-- TERM 0 leaves no word; with one word more than a 64-bit integer holds the result is a word sequence. -/
theorem witness_TermDeliversTheWords_forms :
    Inv (wWords .w32 []) ∧ Inv (wWords .w32 [1, 2]) ∧ Inv (wWords .w32 [1, 2, 0]) ∧ Inv (wWords .w64 [1, 0]) ∧
      wordsAtEnd (wordsAfter .w32 [] 0 3 0) (accAfter .w32 0 3 0) = [] ∧
      wordsAtEnd (wordsAfter .w32 [1, 2] 0 3 0) (accAfter .w32 0 3 0) = [1, 2] ∧
      wordsAtEnd (wordsAfter .w32 [1, 2, 0] 0 3 0) (accAfter .w32 0 3 0) = [1, 2, 0] ∧
      wordsAtEnd (wordsAfter .w64 [1, 0] 0 3 0) (accAfter .w64 0 3 0) = [1, 0] :=
  ⟨wWords_inv _ _ (by simp [Width.bits]), wWords_inv _ _ (by simp [Width.bits]),
    wWords_inv _ _ (by simp [Width.bits]), wWords_inv _ _ (by simp [Width.bits]),
    by decide, by decide, by decide, by decide⟩

/-- A decode in progress that has no input byte left, and an input that has one. -/
theorem witness_WireBytesDoNotReadTheInput :
    (∃ p, Instr.term 2 = .cont p ∨ Instr.term 2 = .term p) ∧ InputOwned (inDecode (build .w64) 5 3) ∧ 1 ≤ 1 ∧
      (inDecode (build .w64) 5 3).ports.len ≤ (inDecode (build .w64) 5 3).dec.di :=
  ⟨⟨2, .inr rfl⟩, ⟨by decide, rfl⟩, le_rfl, by decide⟩

theorem witness_WireByteOutsideADecodeIsRefused : (build .w32).phase = .idle := rfl

theorem witness_DecodeDeliversTheSumOfItsGroups (w : Width) :
    DecodeRequest .decC (wDec w) 5 4 ∧ TerminatorAt (wDec w) 1 ∧ ∀ n, FitsNmax (wDec w) n :=
  ⟨wDec_request w, wDec_terminator w, fun _ => fitsNmax_unbounded w _ _ rfl⟩

theorem witness_KindFollowsTheNumberOfWords (w : Width) :
    ∃ t, DecodeRequest .decC (wDec w) 5 4 ∧ TerminatorAt (wDec w) 1 ∧ exec .decC (wDec w) = .next t := by
  cases w <;> exact ⟨_, wDec_request _, wDec_terminator _, rfl⟩

/-- `n` bytes of `0x80` and a last one: a long unseeded input. -/
def wLong (w : Width) (n : Nat) : State := withInput w (List.replicate n 0x80 ++ [0x01]) 0 0

/-- The shortest unseeded input of at least 128 bits: 19 bytes. -/
theorem witness_KindOfCanonicalAndOfLongInput :
    ∃ t, DecodeRequest .dec (wLong .w64 18) 0 0 ∧ TerminatorAt (wLong .w64 18) 18 ∧ exec .dec (wLong .w64 18) = .next t ∧
      readInput (wLong .w64 18) 18 ≠ 0 ∧ 128 ≤ 0 + 7 * (18 + 1) := by
  refine ⟨_, ⟨⟨by decide, rfl⟩, .inl ⟨rfl, rfl, rfl⟩⟩, ⟨by decide, by decide, fun j hj => ?_⟩, rfl, by decide, by decide⟩
  interval_cases j <;> decide

/-- The shortest unseeded input of at least 96 bits, on a 32-bit build: 14 bytes. -/
theorem witness_KindOfCanonicalAndOfLongInput_w32 :
    ∃ t, DecodeRequest .dec (wLong .w32 13) 0 0 ∧ TerminatorAt (wLong .w32 13) 13 ∧ exec .dec (wLong .w32 13) = .next t ∧
      readInput (wLong .w32 13) 13 ≠ 0 ∧ 96 ≤ 0 + 7 * (13 + 1) ∧ (wLong .w32 13).cfg.width = .w32 := by
  refine ⟨_, ⟨⟨by decide, rfl⟩, .inl ⟨rfl, rfl, rfl⟩⟩, ⟨by decide, by decide, fun j hj => ?_⟩, rfl, by decide, by decide, rfl⟩
  interval_cases j <;> decide

theorem witness_DecodeFailsExactlyWhenUnterminated :
    DecodeRequest .decC wOpen 5 4 ∧ NoTerminator wOpen ∧ ∀ n, FitsNmax wOpen n :=
  ⟨wOpen_request, wOpen_noTerminator, fun _ => fitsNmax_unbounded .w64 _ _ rfl⟩

theorem witness_EmptyInputIsUnterminatedForEverySeed :
    DecodeRequest .decC (withInput .w64 [] 5 4) 5 4 ∧ (withInput .w64 [] 5 4).ports.len = 0 ∧
      FitsNmax (withInput .w64 [] 5 4) (4 / 64) :=
  ⟨⟨⟨by decide, rfl⟩, .inr ⟨rfl, rfl, rfl, by decide⟩⟩, rfl, fitsNmax_unbounded .w64 _ _ rfl⟩

theorem witness_FirstPositionZeroDeliversTheSeed :
    DecodeRequest .decC (withInput .w64 [0x00] 0xFF 4) 0xFF 4 ∧ 0 < (withInput .w64 [0x00] 0xFF 4).ports.len ∧
      readInput (withInput .w64 [0x00] 0xFF 4) 0 = 0 ∧ ∀ n, FitsNmax (withInput .w64 [0x00] 0xFF 4) n :=
  ⟨⟨⟨by decide, rfl⟩, .inr ⟨rfl, rfl, rfl, by decide⟩⟩, by decide, by decide,
    fun _ => fitsNmax_unbounded .w64 _ _ rfl⟩

theorem witness_BytesAfterTheTerminatorDoNotMatter :
    InputOwned (wDec .w64) ∧ TerminatorAt (wDec .w64) 1 ∧ 1 < 2 ∧ 2 ≤ 2 ∧
      ∀ j ≤ 1, readCell (bytesAt [0x81, 0x02, 0x00]) j = readInput (wDec .w64) j := by
  refine ⟨⟨by decide, rfl⟩, wDec_terminator .w64, by decide, by decide, fun j hj => ?_⟩
  interval_cases j <;> decide

theorem witness_DecodeBeyondNmaxIsRefused_terminated :
    DecodeRequest .decC (capped .w64 0 (wDec .w64)) 5 4 ∧ (capped .w64 0 (wDec .w64)).cfg.nmax = some 0 ∧
      TerminatorAt (capped .w64 0 (wDec .w64)) 1 ∧
      0 < wordsOfStream .w64 (4 + 7 * (1 + 1)) (streamValue (capped .w64 0 (wDec .w64)) 5 4 (1 + 1)) :=
  ⟨⟨⟨by decide, rfl⟩, .inr ⟨rfl, rfl, rfl, by decide⟩⟩, rfl, wDec_terminator .w64, by decide⟩

theorem witness_DecodeBeyondNmaxIsRefused_open :
    DecodeRequest .decC (capped .w32 1 (withInput .w32 [0x80] 0 64)) 0 64 ∧
      NoTerminator (capped .w32 1 (withInput .w32 [0x80] 0 64)) ∧ 1 < (64 + 7 * 1) / Width.w32.bits := by
  refine ⟨⟨⟨by decide, rfl⟩, .inr ⟨rfl, rfl, rfl, by decide⟩⟩, fun j hj => ?_, by decide⟩
  have hj : j < 1 := hj
  interval_cases j
  decide

theorem witness_DecodeUndoesEncode :
    ∃ t, EncodeRequest .encU64 wEnc 16383 ∧ exec .encU64 wEnc = .next t ∧ t.res.ok = true ∧
      InputOwned (withInput .w32 [0xFF, 0x7F] 0 0) ∧ t.res.count ≤ (withInput .w32 [0xFF, 0x7F] 0 0).ports.len ∧
      (∀ a < t.res.count, readInput (withInput .w32 [0xFF, 0x7F] 0 0) a = readCell t.out a) ∧
      ∀ n, FitsNmax (withInput .w32 [0xFF, 0x7F] 0 0) n :=
  ⟨_, wEnc_u64, rfl, by decide, ⟨by decide, rfl⟩, by decide, by decide, fun _ => fitsNmax_unbounded .w32 _ _ rfl⟩

theorem witness_DecodeChangesOnlyItsRegistersAndPorts :
    (∃ t, exec .dec (wDec .w64) = .next t) ∧ (∃ t, exec .decC wOpen = .next t) ∧
      (∃ t, exec (.cont 1) (wIn .w64) = .next t) ∧ ∃ t, exec (.term 3) (wIn .w32) = .next t :=
  ⟨⟨_, rfl⟩, ⟨_, rfl⟩, ⟨_, rfl⟩, ⟨_, rfl⟩⟩

theorem witness_DecCIsTheRunOfItsWireBytes :
    ∃ b, DecodeRequest .decC wOpen wOpen.ports.preValue.toNat wOpen.ports.preBits.toNat ∧
      beginDecode wOpen.ports.preValue wOpen.ports.preBits wOpen = some b :=
  ⟨_, wOpen_request, rfl⟩

theorem witness_DecodeInProgressEnds :
    Inv (wIn .w32) ∧ (wIn .w32).phase = .decoding ∧ (wIn .w32).contended = false := ⟨wIn_inv .w32, rfl, rfl⟩

theorem witness_PreBitsAbove64AreRefused : 64 < (withInput .w64 [] 0 65).ports.preBits.toNat := by decide

theorem witness_NonNormalValueIsRefused :
    ¬ NormalForm (withWords .w64 [5, 0] 0) ∧ FitsNmax (withWords .w64 [5, 0] 0) 2 ∧
      (withWords .w64 [5, 0] 0).contended = false ∧ OutputOwned (withWords .w64 [5, 0] 0) :=
  ⟨fun h => h (by decide) (by decide), fitsNmax_unbounded .w64 _ _ rfl, rfl, ⟨by decide, rfl⟩⟩

theorem witness_ValueBeyondNmaxIsRefused :
    (capped .w64 1 (withWords .w64 [0, 1] 0)).cfg.nmax = some 1 ∧ 1 < (capped .w64 1 (withWords .w64 [0, 1] 0)).ports.nwords :=
  ⟨rfl, by decide⟩

/-- Buffers shorter than the ports say, and buffers of the right size that another agent touches. -/
def wShort : State := { withInput .w64 [0x00] 0 0 with inSize := 0, outSize := 0, ports := { (withInput .w64 [0x00] 0 0).ports with cap := 1 } }

def wShared : State := { withInput .w64 [0x00] 0 0 with contended := true }

theorem witness_BufferHazardsAreRefused :
    wShort.outSize < wShort.ports.cap ∧ wShort.inSize < wShort.ports.len ∧ wShort.ports.preBits.toNat ≤ 64 ∧
      wShared.ports.cap ≤ wShared.outSize ∧ wShared.ports.len ≤ wShared.inSize ∧ wShared.contended = true ∧
      FitsNmax wShort wShort.ports.nwords ∧ FitsNmax wShared wShared.ports.nwords :=
  ⟨by decide, by decide, by decide, by decide, by decide, rfl, fitsNmax_unbounded .w64 _ _ rfl,
    fitsNmax_unbounded .w64 _ _ rfl⟩

/-- A decode in progress of two bytes of which the caller owns one, and one that another agent touches. -/
theorem witness_DecodeInProgressRefusesBufferHazards :
    let short := { wIn .w64 with inSize := 1 }
    let shared := { wIn .w64 with contended := true }
    short.phase = .decoding ∧ short.inSize < short.ports.len ∧
      shared.phase = .decoding ∧ shared.ports.len ≤ shared.inSize ∧ shared.contended = true :=
  ⟨rfl, by decide, rfl, by decide, rfl⟩

theorem witness_StepKeepsTheInvariant : ∃ t, Inv (wIn .w64) ∧ step (wIn .w64) = .next t := ⟨_, wIn_inv .w64, rfl⟩

theorem witness_StepLeavesTheCallersInputs :
    ∃ t, step (wIn .w64) = .next t ∧ fetch (wIn .w64) ≠ some .encU64 ∧ fetch (wIn .w64) ≠ some .encBig :=
  ⟨_, rfl, by decide, by decide⟩

theorem witness_StepNeverWritesPastTheCapacity : ∃ t, step wEnc = .next t ∧ fetch wEnc = some .encU64 := ⟨_, rfl, by decide⟩

theorem witness_OperationsShareNoState :
    Instr.dec.format = .cmd ∧ SameRequest (wIn .w64) { wIn .w64 with phase := .idle, dec := State.reset.dec } :=
  ⟨rfl, rfl, rfl, rfl, rfl, rfl, rfl, rfl, rfl⟩

theorem witness_OperationAfterResetBehavesAsAnyOther : Instr.encBig.format = .cmd := rfl

theorem witness_OperationsEndIdle : ∃ t, Instr.encU64.format = .cmd ∧ exec .encU64 wEnc = .next t := ⟨_, rfl, rfl⟩

end Sys2Proof.Tests
end

/-! What an operation delivers is a function of its request: no register, result port or phase left from before
reaches it (`10_state.md` R20). -/
namespace Sys2Proof.Machine

section
variable {s t : State}

/-! ## Requests -/

/-- States with one request differ in what an earlier operation may have left, and in nothing else. -/
theorem SameRequest.eq_with (h : SameRequest s t) :
    t = { s with phase := t.phase, res := t.res, size := t.size, enc := t.enc, dec := t.dec, draws := t.draws } := by
  cases s
  cases t
  obtain ⟨rfl, rfl, rfl, rfl, rfl, rfl, rfl, rfl⟩ := h
  rfl

theorem SameRequest.cfg_eq (h : SameRequest s t) : t.cfg = s.cfg := by rw [h.eq_with]

theorem SameRequest.ports_eq (h : SameRequest s t) : t.ports = s.ports := by rw [h.eq_with]

theorem SameRequest.out_eq (h : SameRequest s t) : t.out = s.out := by rw [h.eq_with]

theorem SameRequest.readInput_eq (h : SameRequest s t) (i : Nat) : readInput t i = readInput s i := by
  rw [h.eq_with]; rfl

theorem SameRequest.isZeroValue_eq (h : SameRequest s t) : isZeroValue t = isZeroValue s := by
  rw [h.eq_with]; rfl

theorem SameRequest.valueWords_eq (h : SameRequest s t) : valueWords t = valueWords s := by
  rw [h.eq_with]; rfl

theorem SameRequest.sizeBigCount_eq (h : SameRequest s t) : sizeBigCount t = sizeBigCount s := by
  rw [h.eq_with]; rfl

theorem SameRequest.refusalSizeBig_eq (h : SameRequest s t) : refusalSizeBig t = refusalSizeBig s := by
  rw [h.eq_with]; rfl

theorem SameRequest.refusalEncU64_eq (h : SameRequest s t) : refusalEncU64 t = refusalEncU64 s := by
  rw [h.eq_with]; rfl

theorem SameRequest.refusalEncBig_eq (h : SameRequest s t) : refusalEncBig t = refusalEncBig s := by
  rw [h.eq_with]; rfl

theorem SameRequest.refusalDec_eq (h : SameRequest s t) : refusalDec t = refusalDec s := by
  rw [h.eq_with]; rfl

theorem SameRequest.refusalDecC_eq (h : SameRequest s t) : refusalDecC t = refusalDecC s := by
  rw [h.eq_with]; rfl

theorem sameOutcome_encBig_iff {a b : Host.Outcome State Fault Refusal} :
    SameOutcome .encBig a b ↔ SameOutcome .encU64 a b := Iff.rfl

theorem sameOutcome_decC_iff {a b : Host.Outcome State Fault Refusal} :
    SameOutcome .decC a b ↔ SameOutcome .dec a b := Iff.rfl

/-! ## SizeEstimator -/

theorem execSizeU64_sameOutcome (h : SameRequest s t) : SameOutcome .sizeU64 (execSizeU64 s) (execSizeU64 t) := by
  refine ⟨h.out_eq.symm, ?_⟩
  simp only [doneSize_res, h.ports_eq]

theorem execSizeBig_sameOutcome (h : SameRequest s t) : SameOutcome .sizeBig (execSizeBig s) (execSizeBig t) := by
  unfold execSizeBig
  rw [h.refusalSizeBig_eq]
  cases refusalSizeBig s with
  | some r => rfl
  | none => exact ⟨h.out_eq.symm, h.sizeBigCount_eq.symm⟩

/-! ## Encoder: two runs side by side -/

/-- Two emissions that wrote the same and stand alike: both raised, or both going on with registers that `R` relates. -/
def Alike (R : EncRegs → EncRegs → Prop) (e e' : Emission) : Prop :=
  match e, e' with
  | .going r out, .going r' out' => R r r' ∧ out = out'
  | .raised _ out, .raised _ out' => out = out'
  | _, _ => False

theorem andThen_alike {Q R : EncRegs → EncRegs → Prop} {e e' : Emission} {f f' : EncRegs → Memory → Emission}
    (he : Alike Q e e') (hf : ∀ r r' out, Q r r' → Alike R (f r out) (f' r' out)) :
    Alike R (andThen e f) (andThen e' f') := by
  cases e with
  | going r out =>
    cases e' with
    | going r' out' =>
      obtain ⟨hr, rfl⟩ := he
      exact hf r r' out hr
    | raised r' out' => exact he.elim
  | raised r out =>
    cases e' with
    | going r' out' => exact he.elim
    | raised r' out' => exact he

theorem emit_alike {R : EncRegs → EncRegs → Prop} (cap : Nat) (b : Byte) {r r' : EncRegs} (out : Memory)
    (hp : r.epos = r'.epos) (hR : R { r with epos := r.epos + 1 } { r' with epos := r'.epos + 1 }) :
    Alike R (emit cap b r out) (emit cap b r' out) := by
  by_cases hc : cap ≤ r.epos
  · rw [emit_of_le _ _ _ _ hc, emit_of_le _ _ _ _ (hp ▸ hc)]
    rfl
  · rw [emit_of_lt _ _ _ _ (by omega), emit_of_lt _ _ _ _ (by omega)]
    exact ⟨hR, by rw [hp]⟩

/-- The registers ENC.U64 reads (`42_encoder.md` R112) are the same. -/
structure SameU64Regs (r r' : EncRegs) : Prop where
  ev : r.ev = r'.ev
  epos : r.epos = r'.epos

/-- The registers ENC.BIG reads (`42_encoder.md` R114, R116) are the same. -/
structure SameBigRegs (r r' : EncRegs) : Prop where
  eacc : r.eacc = r'.eacc
  estep : r.estep = r'.estep
  epos : r.epos = r'.epos

theorem encodeU64Loop_alike (cap k : Nat) {r r' : EncRegs} (out : Memory) (h : SameU64Regs r r') :
    Alike SameU64Regs (encodeU64Loop cap k r out) (encodeU64Loop cap k r' out) := by
  induction k generalizing r r' out with
  | zero => exact ⟨h, rfl⟩
  | succ k ih =>
    unfold encodeU64Loop
    rw [h.ev]
    refine andThen_alike (Q := SameU64Regs)
      (emit_alike cap _ out h.epos ⟨rfl, congrArg (· + 1) h.epos⟩) fun r r' out h => ?_
    rw [h.ev]
    split
    · exact ⟨h, rfl⟩
    · exact ih out h

theorem placeHalf_sameBigRegs (w : Width) (half : Half) (v : Word) {r r' : EncRegs} (h : SameBigRegs r r') :
    SameBigRegs (placeHalf w half v r) (placeHalf w half v r') :=
  ⟨by simp only [placeHalf, h.eacc, h.estep], h.estep, h.epos⟩

theorem flushGroup_alike (cap : Nat) {r r' : EncRegs} (out : Memory) (h : SameBigRegs r r') :
    Alike SameBigRegs (flushGroup cap r out) (flushGroup cap r' out) := by
  unfold flushGroup
  rw [h.eacc]
  exact andThen_alike (Q := SameBigRegs) (emit_alike cap _ out h.epos ⟨h.eacc, h.estep, congrArg (· + 1) h.epos⟩)
    fun r r' out h => ⟨⟨congrArg (fun v : Word => v >>> 7) h.eacc, h.estep, h.epos⟩, rfl⟩

theorem flushGroups_alike (cap k : Nat) {r r' : EncRegs} (out : Memory) (h : SameBigRegs r r') :
    Alike SameBigRegs (flushGroups cap k r out) (flushGroups cap k r' out) := by
  induction k generalizing r r' out with
  | zero => exact ⟨h, rfl⟩
  | succ k ih => exact andThen_alike (flushGroup_alike cap out h) fun r r' out h => ih out h

theorem halfStep_alike (w : Width) (cap : Nat) (half : Half) (v : Word) {r r' : EncRegs} (out : Memory)
    (h : SameBigRegs r r') : Alike SameBigRegs (halfStep w cap half v r out) (halfStep w cap half v r' out) := by
  unfold halfStep
  rw [h.estep]
  exact andThen_alike (flushGroups_alike cap _ out (placeHalf_sameBigRegs w half v h))
    fun r r' out h => ⟨⟨h.eacc, congrArg (· + 1) h.estep, h.epos⟩, rfl⟩

theorem finalFlush_alike (cap k : Nat) {r r' : EncRegs} (out : Memory) (h : SameBigRegs r r') :
    Alike SameBigRegs (finalFlush cap k r out) (finalFlush cap k r' out) := by
  induction k generalizing r r' out with
  | zero => exact ⟨h, rfl⟩
  | succ k ih =>
    unfold finalFlush
    rw [h.eacc]
    refine andThen_alike (Q := SameBigRegs)
      (emit_alike cap _ out h.epos ⟨rfl, h.estep, congrArg (· + 1) h.epos⟩) fun r r' out h => ?_
    rw [h.eacc]
    split
    · exact ⟨h, rfl⟩
    · exact ih out h

theorem innerWord_alike (w : Width) (cap : Nat) (v : Word) {r r' : EncRegs} (out : Memory) (h : SameBigRegs r r') :
    Alike SameBigRegs (innerWord w cap v r out) (innerWord w cap v r' out) :=
  andThen_alike (halfStep_alike w cap .low _ out h) fun _ _ out h =>
    andThen_alike (halfStep_alike w cap .high _ out h) fun _ _ _ h => ⟨⟨h.eacc, h.estep, h.epos⟩, rfl⟩

theorem lastWord_alike (w : Width) (cap : Nat) (v : Word) {r r' : EncRegs} (out : Memory) (h : SameBigRegs r r') :
    Alike SameBigRegs (lastWord w cap v r out) (lastWord w cap v r' out) := by
  unfold lastWord
  split
  · exact finalFlush_alike cap 10 out (placeHalf_sameBigRegs w .low _ h)
  · exact andThen_alike (halfStep_alike w cap .low _ out h) fun _ _ out h =>
      finalFlush_alike cap 10 out (placeHalf_sameBigRegs w .high _ h)

theorem encodeWords_alike (w : Width) (cap : Nat) (vs : List Word) {r r' : EncRegs} (out : Memory)
    (h : SameBigRegs r r') : Alike SameBigRegs (encodeWords w cap vs r out) (encodeWords w cap vs r' out) := by
  induction vs generalizing r r' out with
  | nil => exact ⟨h, rfl⟩
  | cons v vs ih =>
    cases vs with
    | nil => exact lastWord_alike w cap v out h
    | cons v' vs => exact andThen_alike (innerWord_alike w cap v out h) fun _ _ out h => ih out h

theorem encodeU64Emission_alike (h : SameRequest s t) :
    Alike SameU64Regs (encodeU64Emission s) (encodeU64Emission t) := by
  unfold encodeU64Emission
  rw [h.ports_eq, h.out_eq]
  exact encodeU64Loop_alike _ 10 _ ⟨rfl, rfl⟩

theorem encodeBigEmission_alike (h : SameRequest s t) :
    Alike SameBigRegs (encodeBigEmission s) (encodeBigEmission t) := by
  unfold encodeBigEmission
  rw [h.isZeroValue_eq, h.valueWords_eq, h.cfg_eq, h.ports_eq, h.out_eq]
  split
  · exact emit_alike _ _ _ rfl ⟨rfl, rfl, rfl⟩
  · exact encodeWords_alike _ _ _ _ ⟨rfl, rfl, rfl⟩

/-- Only the policy `ANY` leaves it to a free value how many bytes a failing encode writes (`42_encoder.md` R122). -/
theorem failingPrefix_of_ne_any {c : Config} (hc : c.failPrefix ≠ .any) (cap d d' : Nat) :
    failingPrefix c cap d = failingPrefix c cap d' := by
  unfold failingPrefix
  cases hp : c.failPrefix with
  | none => rfl
  | full => rfl
  | any => exact absurd hp hc

/-- Alike emissions end an encode in the same result, success or error. -/
theorem finishEncode_sameResults {R : EncRegs → EncRegs → Prop} {e e' : Emission} (h : SameRequest s t)
    (hR : ∀ r r', R r r' → r.epos = r'.epos) (he : Alike R e e') :
    SameResults .encU64 (finishEncode s e) (finishEncode t e') := by
  cases e with
  | going r out =>
    cases e' with
    | going r' out' => exact ⟨rfl, fun _ => hR r r' he.1, fun _ => he.2⟩
    | raised r' out' => exact he.elim
  | raised r out =>
    cases e' with
    | going r' out' => exact he.elim
    | raised r' out' =>
      obtain rfl : out = out' := he
      refine ⟨rfl, fun hk => absurd hk Bool.false_ne_true, fun hk => ?_⟩
      have hc : s.cfg.failPrefix ≠ .any := hk.resolve_left Bool.false_ne_true
      simp only [finishEncode, raiseInsufficientCapacity_out, h.cfg_eq, h.ports_eq, h.out_eq]
      rw [failingPrefix_of_ne_any hc s.ports.cap s.draws t.draws]

theorem execEncU64_sameOutcome (h : SameRequest s t) : SameOutcome .encU64 (execEncU64 s) (execEncU64 t) := by
  rw [execEncU64_eq, execEncU64_eq, h.refusalEncU64_eq]
  cases refusalEncU64 s with
  | some r => rfl
  | none => exact finishEncode_sameResults h (fun _ _ h => h.epos) (encodeU64Emission_alike h)

theorem execEncBig_sameOutcome (h : SameRequest s t) : SameOutcome .encBig (execEncBig s) (execEncBig t) := by
  rw [sameOutcome_encBig_iff, execEncBig_eq, execEncBig_eq, h.refusalEncBig_eq]
  cases refusalEncBig s with
  | some r => rfl
  | none => exact finishEncode_sameResults h (fun _ _ h => h.epos) (encodeBigEmission_alike h)

/-! ## Decoder -/

/-- Spilling neither reads nor writes the accumulator and the bit offset. -/
theorem spillSeed_withAcc (w : Width) (nmax : Option Nat) (k : Nat) (r : DecRegs) (acc : Word) (off : BitVec 7) :
    spillSeed w nmax k { r with dacc := acc, doff := off } =
      (spillSeed w nmax k r).map fun q => { q with dacc := acc, doff := off } := by
  induction k generalizing r with
  | zero => rfl
  | succ k ih =>
    unfold spillSeed
    dsimp only
    by_cases hd : r.drem.toNat < w.bits
    · rw [if_pos hd, if_pos hd, Option.map_some]
    · rw [if_neg hd, if_neg hd]
      cases hn : overNmax nmax (r.dws.length + 1) with
      | true => simp only [appendWord, hn, if_true, Option.map_none]
      | false =>
        rw [appendWord_of_fits (r := { r with dacc := acc, doff := off }) hn, appendWord_of_fits hn]
        exact ih { r with
          dws := r.dws ++ [truncWord w r.dpv]
          dnw := r.dws.length + 1
          dpv := r.dpv >>> w.bits
          drem := r.drem - BitVec.ofNat 7 w.bits }

/-- The seed writes every register of the Decoder (`10_state.md` R42), so none left from before reaches a decode. -/
theorem seed_eq_of_any (w : Width) (nmax : Option Nat) (pv : BitVec 64) (pb : BitVec 7) (r r' : DecRegs) :
    seed w nmax pv pb r' = seed w nmax pv pb r := by
  have hs := spillSeed_withAcc w nmax 2 { r with dpv := maskSeed pv pb, drem := pb, dws := [], dnw := 0, di := 0 }
    r'.dacc r'.doff
  unfold seed
  dsimp only at hs
  rw [hs]
  cases spillSeed w nmax 2 { r with dpv := maskSeed pv pb, drem := pb, dws := [], dnw := 0, di := 0 } with
  | none => rfl
  | some q => rfl

theorem finishDecode_sameResults (h : SameRequest s t) (r : DecRegs) :
    SameResults .dec (finishDecode s r) (finishDecode t r) := by
  unfold finishDecode
  rw [h.cfg_eq]
  cases kindOfWords s.cfg.width r.dnw with
  | u64 => exact ⟨h.out_eq.symm, rfl, rfl, fun _ => ⟨rfl, fun _ => rfl, nofun⟩⟩
  | big => exact ⟨h.out_eq.symm, rfl, rfl, fun _ => ⟨rfl, nofun, fun _ => ⟨rfl, fun _ _ => rfl⟩⟩⟩

theorem raiseUnterminated_sameResults (h : SameRequest s t) :
    SameResults .dec (raiseUnterminated s) (raiseUnterminated t) :=
  ⟨h.out_eq.symm, rfl, rfl, nofun⟩

/-- A byte does the same to the registers of both decodes. -/
theorem SameRequest.byteStep_eq {p : Payload} (h : SameRequest s t) (hd : t.dec = s.dec) :
    byteStep t.cfg.width t.cfg.nmax p (nextIndex t.dec) = byteStep s.cfg.width s.cfg.nmax p (nextIndex s.dec) := by
  rw [h.cfg_eq, hd]

theorem takeTerm_sameOutcome (p : Payload) (h : SameRequest s t) (hd : t.dec = s.dec) :
    SameOutcome .dec (takeTerm p s) (takeTerm p t) := by
  unfold takeTerm
  rw [h.byteStep_eq hd, h.cfg_eq]
  cases byteStep s.cfg.width s.cfg.nmax p (nextIndex s.dec) with
  | none => rfl
  | some r =>
    dsimp only
    cases terminate s.cfg.nmax r with
    | none => rfl
    | some r' => exact finishDecode_sameResults h r'

/-- Decodes of one request that stand at the same registers go on alike. -/
theorem decodeLoop_sameOutcome (k : Nat) (h : SameRequest s t) (hd : t.dec = s.dec) :
    SameOutcome .dec (decodeLoop k s) (decodeLoop k t) := by
  induction k generalizing s t with
  | zero => exact raiseUnterminated_sameResults h
  | succ k ih =>
    unfold decodeLoop
    rw [hd, h.ports_eq, h.readInput_eq]
    split
    · split
      · unfold takeCont
        rw [h.byteStep_eq hd]
        cases byteStep s.cfg.width s.cfg.nmax (payload (readInput s s.dec.di)) (nextIndex s.dec) with
        | none => rfl
        | some r => exact ih (s := { s with dec := r }) (t := { t with dec := r }) h rfl
      · exact takeTerm_sameOutcome _ h hd
    · exact raiseUnterminated_sameResults h

theorem runDecode_sameOutcome (pv : BitVec 64) (pb : BitVec 7) (h : SameRequest s t) :
    SameOutcome .dec (runDecode pv pb s) (runDecode pv pb t) := by
  have hs : seed t.cfg.width t.cfg.nmax pv pb t.dec = seed s.cfg.width s.cfg.nmax pv pb s.dec := by
    rw [h.cfg_eq, seed_eq_of_any]
  have hl : t.ports.len = s.ports.len := by rw [h.ports_eq]
  unfold runDecode beginDecode
  rw [hs]
  cases seed s.cfg.width s.cfg.nmax pv pb s.dec with
  | none => rfl
  | some r =>
    dsimp only
    rw [hl]
    exact decodeLoop_sameOutcome _ (s := { s with phase := .decoding, dec := r })
      (t := { t with phase := .decoding, dec := r }) h rfl

theorem execDec_sameOutcome (h : SameRequest s t) : SameOutcome .dec (execDec s) (execDec t) := by
  unfold execDec
  rw [h.refusalDec_eq]
  cases refusalDec s with
  | some r => rfl
  | none => exact runDecode_sameOutcome 0 0 h

theorem execDecC_sameOutcome (h : SameRequest s t) : SameOutcome .decC (execDecC s) (execDecC t) := by
  unfold execDecC
  rw [sameOutcome_decC_iff, h.refusalDecC_eq, h.ports_eq]
  cases refusalDecC s with
  | some r => rfl
  | none => exact runDecode_sameOutcome _ _ h

end

/-- Settles O48: operation by operation, since each starts by writing the registers it reads; also where a decode is in
progress (log 17). -/
theorem operationsShareNoState : Obligations.OperationsShareNoState := by
  unfold Obligations.OperationsShareNoState
  intro i s t hi h
  cases i with
  | sizeU64 => exact execSizeU64_sameOutcome h
  | sizeBig => exact execSizeBig_sameOutcome h
  | encU64 => exact execEncU64_sameOutcome h
  | encBig => exact execEncBig_sameOutcome h
  | dec => exact execDec_sameOutcome h
  | decC => exact execDecC_sameOutcome h
  | reserved6 => rfl
  | reserved7 => rfl
  | cont p => exact nomatch hi
  | term p => exact nomatch hi

end Sys2Proof.Machine

/-! The two classes of wire bytes (`30_encoding.md` R71). -/
namespace Sys2Proof.Machine

theorem and_contMask (b : Byte) : b &&& 0x80 = if contFlag b then 0x80 else 0 := by
  revert b
  decide

theorem payload_eq_ofNat (b : Byte) : payload b = BitVec.ofNat 7 (b.toNat % 128) :=
  BitVec.eq_of_toNat_eq (by rw [payload_toNat, BitVec.toNat_ofNat, Nat.mod_mod])

/-- Settles O2: the mask and the decoder both read the continuation flag, which is set from `0x80` on. -/
theorem everyByteIsInExactlyOneWireClass : Obligations.EveryByteIsInExactlyOneWireClass := by
  unfold Obligations.EveryByteIsInExactlyOneWireClass
  intro b
  rw [and_contMask, decodeWire_eq, contFlag_eq, payload_eq_ofNat]
  rcases Nat.lt_or_ge b.toNat 0x80 with h | h
  · simp [h]
  · simp [h]

end Sys2Proof.Machine

/-! A decode neither reads nor writes an operand port but `LEN` (`43_decoder.md` R148, R149). -/
namespace Sys2Proof.Machine

/-- An outcome with the operand ports of its next state replaced. -/
def withPorts (q : Ports) : Host.Outcome State Fault Refusal → Host.Outcome State Fault Refusal
  | .next t => .next { t with ports := q }
  | .fault r => .fault r
  | .refused r => .refused r

theorem finishDecode_withPorts (q : Ports) (s : State) (r : DecRegs) :
    finishDecode { s with ports := q } r = { finishDecode s r with ports := q } := by
  unfold finishDecode
  dsimp only
  cases kindOfWords s.cfg.width r.dnw <;> rfl

theorem takeCont_withPorts (p : Payload) (q : Ports) (s : State) :
    takeCont p { s with ports := q } = withPorts q (takeCont p s) := by
  unfold takeCont
  dsimp only
  cases byteStep s.cfg.width s.cfg.nmax p (nextIndex s.dec) <;> rfl

theorem takeTerm_withPorts (p : Payload) (q : Ports) (s : State) :
    takeTerm p { s with ports := q } = withPorts q (takeTerm p s) := by
  unfold takeTerm
  dsimp only
  cases byteStep s.cfg.width s.cfg.nmax p (nextIndex s.dec) with
  | none => rfl
  | some r =>
    dsimp only
    cases terminate s.cfg.nmax r with
    | none => rfl
    | some r' => exact congrArg Host.Outcome.next (finishDecode_withPorts q s r')

theorem decodeLoop_withPorts (k : Nat) (q : Ports) (s : State) (hlen : q.len = s.ports.len) :
    decodeLoop k { s with ports := q } = withPorts q (decodeLoop k s) := by
  induction k generalizing s with
  | zero => rfl
  | succ k ih =>
    have hin : ∀ i, readInput { s with ports := q } i = readInput s i := fun _ => rfl
    unfold decodeLoop
    dsimp only
    rw [hlen, hin, takeCont_withPorts, takeTerm_withPorts]
    split
    · split
      · cases h : takeCont (payload (readInput s s.dec.di)) s with
        | next t =>
          obtain ⟨r, -, rfl⟩ := takeCont_next h
          exact ih { s with dec := r } hlen
        | fault r => rfl
        | refused r => rfl
      · rfl
    · rfl

theorem runDecode_withPorts (pv : BitVec 64) (pb : BitVec 7) (q : Ports) (s : State) (hlen : q.len = s.ports.len) :
    runDecode pv pb { s with ports := q } = withPorts q (runDecode pv pb s) := by
  unfold runDecode beginDecode
  dsimp only
  cases seed s.cfg.width s.cfg.nmax pv pb s.dec with
  | none => rfl
  | some r =>
    dsimp only
    rw [hlen]
    exact decodeLoop_withPorts s.ports.len q { s with phase := .decoding, dec := r } hlen

/-- The state with the two seed ports 0 (`43_decoder.md` R149). -/
def withoutSeed (s : State) : State := { s with ports := { s.ports with preValue := 0, preBits := 0 } }

theorem refusalDecC_withoutSeed (s : State) : refusalDecC (withoutSeed s) = refusalDec s := rfl

theorem exec_dec_eq_exec_decC (s : State) : exec .dec s = withPorts s.ports (exec .decC (withoutSeed s)) := by
  rw [exec_dec, exec_decC, execDec, execDecC, refusalDecC_withoutSeed]
  cases refusalDec s with
  | some r => rfl
  | none => exact runDecode_withPorts 0 0 s.ports (withoutSeed s) rfl

/-- Settles O32: the two differ in the seed they are given and in nothing else, and a decode keeps its ports. -/
theorem decIsDecCWithoutASeed : Obligations.DecIsDecCWithoutASeed := by
  unfold Obligations.DecIsDecCWithoutASeed
  intro s
  rw [exec_dec_eq_exec_decC, withoutSeed]
  cases exec .decC { s with ports := { s.ports with preValue := 0, preBits := 0 } } with
  | next t => rfl
  | fault r => exact nomatch r
  | refused r => rfl

end Sys2Proof.Machine

/-! The number a decode has taken in: what its registers hold after the seed, after each byte and at its end
(`43_decoder.md` R142 to R147, R153). -/
namespace Sys2Proof.Machine

section
variable {w : Width} {nmax : Option Nat} {r : DecRegs} {b v : Nat}

/-! ## Numbers -/

theorem overNmax_mono {m n : Nat} (h : overNmax nmax m = true) (hmn : m ≤ n) : overNmax nmax n = true := by
  obtain ⟨k, hk, hkm⟩ := (overNmax_eq_true nmax m).1 h
  exact (overNmax_eq_true nmax n).2 ⟨k, hk, hkm.trans_le hmn⟩

/-- The number a word sequence stands for, least-significant word first. -/
def wordsValue (w : Width) (ws : List Nat) : Nat := Nat.ofDigits (2 ^ w.bits) ws

@[simp] theorem wordsValue_nil (w : Width) : wordsValue w [] = 0 := rfl

@[simp] theorem wordsValue_cons (w : Width) (a : Nat) (ws : List Nat) :
    wordsValue w (a :: ws) = a + 2 ^ w.bits * wordsValue w ws := Nat.ofDigits_cons

@[simp] theorem wordsValue_append_word (w : Width) (ws : List Nat) (a : Nat) :
    wordsValue w (ws ++ [a]) = wordsValue w ws + a * 2 ^ (w.bits * ws.length) := by
  rw [wordsValue, Nat.ofDigits_append, Nat.ofDigits_singleton, ← pow_mul, mul_comm a]
  rfl

@[simp] theorem wordNumbers_length (r : DecRegs) : (wordNumbers r).length = r.dws.length := List.length_map _

theorem wordsValue_lt (h : ∀ x ∈ r.dws, x.toNat < 2 ^ w.bits) :
    wordsValue w (wordNumbers r) < 2 ^ (w.bits * r.dws.length) := by
  rw [pow_mul, ← wordNumbers_length]
  refine Nat.ofDigits_lt_base_pow_length (Nat.one_lt_two_pow (by have := seven_lt_bits w; omega)) fun x hx => ?_
  obtain ⟨y, hy, rfl⟩ := List.mem_map.1 hx
  exact h y hy

theorem sum_words_eq_wordsValue (w : Width) (ws : List Word) :
    ∑ i ∈ Finset.range ws.length, (ws.getD i 0).toNat * 2 ^ (w.bits * i) = wordsValue w (ws.map BitVec.toNat) := by
  induction ws with
  | nil => rfl
  | cons x ws ih =>
    rw [List.length_cons, Finset.sum_range_succ', List.map_cons, wordsValue_cons, ← ih, Finset.mul_sum]
    simp only [List.getD_cons_succ, List.getD_cons_zero, Nat.mul_zero, pow_zero, mul_one, Nat.mul_add, pow_add]
    rw [add_comm]
    exact congrArg _ (Finset.sum_congr rfl fun i _ => by ring)

/-- A number cut at a word boundary into the word and what lies beyond it, at the place `c`. -/
theorem mod_add_div_shifted (x m c : Nat) : x % m * c + x / m * (c * m) = x * c := by
  calc x % m * c + x / m * (c * m) = (x % m + m * (x / m)) * c := by ring
    _ = x * c := by rw [Nat.mod_add_div]

/-! ## The per-byte step -/

theorem placed_eq_add {acc off : Nat} (p : Nat) (h : acc < 2 ^ off) : acc ||| p <<< off = acc + p * 2 ^ off := by
  rw [Nat.lor_comm, ← Nat.shiftLeft_add_eq_or_of_lt h, Nat.shiftLeft_eq, add_comm]

/-- The part of a placed payload beyond the word is the part of the payload beyond the word's free bits. -/
theorem placed_div {acc off m : Nat} (p : Nat) (h : acc < 2 ^ off) (hm : off ≤ m) :
    (acc + p * 2 ^ off) / 2 ^ m = p / 2 ^ (m - off) := by
  have hsplit : 2 ^ m = 2 ^ off * 2 ^ (m - off) := by rw [← pow_add, Nat.add_sub_cancel' hm]
  rw [hsplit, ← Nat.div_div_eq_div_mul, Nat.add_mul_div_right _ _ (Nat.pow_pos (by norm_num)), Nat.div_eq_of_lt h,
    zero_add]

theorem wordsAfter_bits {acc off p : Nat} (ws : List Nat) :
    w.bits * (wordsAfter w ws acc off p).length + offAfter w off = w.bits * ws.length + off + 7 := by
  unfold wordsAfter offAfter
  split
  · omega
  · rw [List.length_append, List.length_singleton, Nat.mul_add]
    omega

/-- A byte's payload is added above the bits held so far, and no bit is lost (`43_decoder.md` R144, R153). -/
theorem wordsAfter_value {acc off p : Nat} (ws : List Nat) (hoff : off < w.bits) (hacc : acc < 2 ^ off) (hp : p < 128) :
    wordsValue w (wordsAfter w ws acc off p) +
        accAfter w acc off p * 2 ^ (w.bits * (wordsAfter w ws acc off p).length) =
      wordsValue w ws + acc * 2 ^ (w.bits * ws.length) + p * 2 ^ (w.bits * ws.length + off) := by
  unfold wordsAfter accAfter
  rw [placed_eq_add p hacc]
  split
  · rename_i hc
    have hlt : acc + p * 2 ^ off < 2 ^ (off + 7) := by
      have := Nat.mul_le_mul_right (2 ^ off) (Nat.le_of_lt_succ hp)
      rw [pow_add]
      omega
    rw [Nat.mod_eq_of_lt (hlt.trans (Nat.pow_lt_pow_right (by norm_num) hc)), pow_add]
    ring
  · rename_i hc
    have hcarry : p >>> (7 - (off + 7 - w.bits)) = (acc + p * 2 ^ off) / 2 ^ w.bits := by
      rw [Nat.shiftRight_eq_div_pow, placed_div p hacc hoff.le]
      congr 2
      omega
    rw [hcarry, wordsValue_append_word, List.length_append, List.length_singleton, Nat.mul_add, mul_one, pow_add,
      add_assoc, mod_add_div_shifted, pow_add]
    ring

/-- Between two bytes the registers hold the number `v`, taken in as `b` bits: the words closed out, and above them the
accumulator. -/
structure Taken (w : Width) (nmax : Option Nat) (r : DecRegs) (b v : Nat) : Prop where
  range : DecRange w nmax r
  between : DecBetween w r
  bits : w.bits * r.dws.length + r.doff.toNat = b
  value : wordsValue w (wordNumbers r) + r.dacc.toNat * 2 ^ (w.bits * r.dws.length) = v

theorem Taken.nextIndex (h : Taken w nmax r b v) : Taken w nmax (nextIndex r) b v :=
  ⟨h.range.nextIndex, h.between.nextIndex, h.bits, h.value⟩

/-- All a byte can do to a decode: its payload is taken in, or it closes out a word that the build does not hold. -/
theorem Taken.byteStep (h : Taken w nmax r b v) (p : Payload) :
    (∃ r', byteStep w nmax p r = some r' ∧ Taken w nmax r' (b + 7) (v + p.toNat * 2 ^ b) ∧ r'.di = r.di) ∨
      (byteStep w nmax p r = none ∧ overNmax nmax ((b + 7) / w.bits) = true) := by
  obtain ⟨hr, hb, rfl, rfl⟩ := h
  cases hs : Machine.byteStep w nmax p r with
  | none =>
    obtain ⟨hfull, hover⟩ := (byteStep_eq_none hb.doff).1 hs
    refine .inr ⟨rfl, overNmax_mono hover ?_⟩
    rw [Nat.le_div_iff_mul_le (by have := seven_lt_bits w; omega), mul_comm, Nat.mul_add]
    omega
  | some r' =>
    obtain ⟨hacc, hoff, hws, hdi, -⟩ := byteStep_numbers hb.doff hs
    obtain ⟨hr', hb'⟩ := byteStep_range hr hb hs
    refine .inl ⟨r', rfl, ⟨hr', hb', ?_, ?_⟩, hdi⟩
    · rw [← wordNumbers_length r', hws, hoff, wordsAfter_bits, wordNumbers_length]
    · rw [← wordNumbers_length r', hws, hacc, wordsAfter_value _ hb.doff hb.dacc p.isLt, wordNumbers_length]

/-! ## Seeding -/

theorem sub_bits_toNat {d : BitVec 7} (h : w.bits ≤ d.toNat) :
    (d - BitVec.ofNat 7 w.bits).toNat = d.toNat - w.bits := by
  have hb : (BitVec.ofNat 7 w.bits).toNat = w.bits := by cases w <;> rfl
  rw [BitVec.toNat_sub_of_le (by rwa [BitVec.le_def, hb]), hb]

/-- While the seed spills, the words closed out and what is left of the masked pre-value are the number `v` of `b`
bits. -/
structure Spilling (w : Width) (r : DecRegs) (b v : Nat) : Prop where
  left : r.dpv.toNat < 2 ^ r.drem.toNat
  bits : w.bits * r.dws.length + r.drem.toNat = b
  value : wordsValue w (wordNumbers r) + r.dpv.toNat * 2 ^ (w.bits * r.dws.length) = v

/-- Spilling one word keeps the number. -/
theorem Spilling.spillWord (h : Spilling w r b v) (hd : w.bits ≤ r.drem.toNat) :
    Spilling w { r with
      dws := r.dws ++ [truncWord w r.dpv]
      dnw := r.dws.length + 1
      dpv := r.dpv >>> w.bits
      drem := r.drem - BitVec.ofNat 7 w.bits } b v := by
  obtain ⟨hleft, rfl, rfl⟩ := h
  refine ⟨?_, ?_, ?_⟩
  · dsimp only
    rwa [sub_bits_toNat hd, BitVec.toNat_ushiftRight, Nat.shiftRight_eq_div_pow,
      Nat.div_lt_iff_lt_mul (Nat.pow_pos (by norm_num)), ← pow_add, Nat.sub_add_cancel hd]
  · dsimp only
    rw [sub_bits_toNat hd, List.length_append, List.length_singleton, Nat.mul_add]
    omega
  · simp only [wordNumbers, List.map_append, List.map_cons, List.map_nil, wordsValue_append_word, List.length_map,
      List.length_append, List.length_singleton, truncWord_toNat, BitVec.toNat_ushiftRight, Nat.shiftRight_eq_div_pow]
    rw [Nat.mul_add, pow_add, mul_one, add_assoc, mod_add_div_shifted]

/-- All the spilling loop can do: it keeps the number, or it closes out a word that the build does not hold. -/
theorem Spilling.spillSeed (h : Spilling w r b v) (k : Nat) :
    (∃ r', spillSeed w nmax k r = some r' ∧ Spilling w r' b v) ∨
      (spillSeed w nmax k r = none ∧ overNmax nmax (b / w.bits) = true) := by
  induction k generalizing r with
  | zero => exact .inl ⟨r, rfl, h⟩
  | succ k ih =>
    unfold Machine.spillSeed
    split
    · exact .inl ⟨r, rfl, h⟩
    · rename_i hd
      cases ha : appendWord nmax (truncWord w r.dpv) r with
      | none =>
        refine .inr ⟨rfl, overNmax_mono (appendWord_eq_none.1 ha) ?_⟩
        rw [Nat.le_div_iff_mul_le (by have := seven_lt_bits w; omega), mul_comm, Nat.mul_add, ← h.bits]
        omega
      | some q =>
        obtain ⟨-, rfl⟩ := appendWord_eq_some ha
        exact ih (h.spillWord (by omega))

/-- All a seed can do: the masked pre-value is taken in, or it spills a word that the build does not hold. -/
theorem seed_taken (w : Width) (nmax : Option Nat) (pv : BitVec 64) {pb : BitVec 7} (r : DecRegs)
    (hpb : pb.toNat ≤ 64) :
    (∃ r', seed w nmax pv pb r = some r' ∧ Taken w nmax r' pb.toNat (pv.toNat % 2 ^ pb.toNat) ∧ r'.di = 0) ∨
      (seed w nmax pv pb r = none ∧ overNmax nmax (pb.toNat / w.bits) = true) := by
  have hstart : Spilling w { r with dpv := maskSeed pv pb, drem := pb, dws := [], dnw := 0, di := 0 } pb.toNat
      (pv.toNat % 2 ^ pb.toNat) :=
    ⟨by simpa only [maskSeed_toNat pv pb hpb] using Nat.mod_lt _ (Nat.pow_pos (by norm_num)), by simp,
      by simp [wordNumbers, maskSeed_toNat pv pb hpb]⟩
  rcases hstart.spillSeed (nmax := nmax) 2 with ⟨q, hq, hspill⟩ | ⟨hq, hover⟩
  · have hs : seed w nmax pv pb r = some { q with dacc := truncWord w q.dpv, doff := q.drem } := by
      rw [seed, hq]
    obtain ⟨hr, hb, hdi⟩ := seed_range hpb hs
    have hlt : q.dpv.toNat < 2 ^ w.bits := hspill.left.trans (Nat.pow_lt_pow_right (by norm_num) hb.doff)
    refine .inl ⟨_, hs, ⟨hr, hb, hspill.bits, ?_⟩, hdi⟩
    rw [truncWord_toNat, Nat.mod_eq_of_lt hlt]
    exact hspill.value
  · exact .inr ⟨by rw [seed, hq], hover⟩

/-! ## Termination and the final representation -/

/-- After termination the words are the number `v`, taken in as `b` bits, and there are as many as `43_decoder.md` R155
says; without a word the accumulator is zero. -/
structure Ended (w : Width) (nmax : Option Nat) (r : DecRegs) (b v : Nat) : Prop where
  range : DecRange w nmax r
  value : wordsValue w (wordNumbers r) = v
  length : r.dws.length = wordsOfStream w b v
  clear : r.dws = [] → r.dacc = 0

/-- The words closed out and the accumulator are the two parts of the number at the last word boundary. -/
theorem Taken.boundary (h : Taken w nmax r b v) :
    b / w.bits = r.dws.length ∧ v / 2 ^ (w.bits * (b / w.bits)) = r.dacc.toNat := by
  obtain ⟨hr, hb, rfl, rfl⟩ := h
  have hlen : (w.bits * r.dws.length + r.doff.toNat) / w.bits = r.dws.length := by
    rw [Nat.mul_add_div (by have := seven_lt_bits w; omega), Nat.div_eq_of_lt hb.doff, Nat.add_zero]
  rw [hlen, Nat.add_mul_div_right _ _ (Nat.pow_pos (by norm_num)), Nat.div_eq_of_lt (wordsValue_lt hr.dws), zero_add]
  exact ⟨rfl, rfl⟩

theorem Taken.wordsOfStream_eq (h : Taken w nmax r b v) :
    wordsOfStream w b v = r.dws.length + if r.dacc.toNat = 0 then 0 else 1 := by
  obtain ⟨hlen, hacc⟩ := h.boundary
  rw [wordsOfStream, hacc, hlen]

theorem wordsAtEnd_value (w : Width) (ws : List Nat) (acc : Nat) :
    wordsValue w (wordsAtEnd ws acc) = wordsValue w ws + acc * 2 ^ (w.bits * ws.length) := by
  by_cases h : acc = 0
  · simp [wordsAtEnd, h]
  · rw [wordsAtEnd, if_neg h, wordsValue_append_word]

theorem wordsAtEnd_length (ws : List Nat) (acc : Nat) :
    (wordsAtEnd ws acc).length = ws.length + if acc = 0 then 0 else 1 := by
  by_cases h : acc = 0 <;> simp [wordsAtEnd, h]

theorem eq_zero_of_wordsAtEnd_eq_nil {ws : List Nat} {acc : Nat} (h : wordsAtEnd ws acc = []) : acc = 0 := by
  by_contra h0
  simp [wordsAtEnd, h0] at h

/-- When termination closes out a word that is one too many. -/
theorem terminate_eq_none :
    terminate nmax r = none ↔ r.dacc ≠ 0 ∧ overNmax nmax (r.dws.length + 1) = true := by
  unfold terminate
  by_cases h : r.dacc = 0
  · simp [h]
  · rw [if_neg h, appendWord_eq_none, and_iff_right h]

/-- All termination can do: the accumulator's number is in the words, or is a word that the build does not hold. -/
theorem Taken.terminate (h : Taken w nmax r b v) :
    (∃ r', terminate nmax r = some r' ∧ Ended w nmax r' b v ∧ r'.di = r.di) ∨
      (terminate nmax r = none ∧ overNmax nmax (wordsOfStream w b v) = true) := by
  have hcount := h.wordsOfStream_eq
  cases ht : Machine.terminate nmax r with
  | none =>
    obtain ⟨h0, hover⟩ := terminate_eq_none.1 ht
    have hne : r.dacc.toNat ≠ 0 := fun e => h0 (BitVec.eq_of_toNat_eq e)
    rw [if_neg hne] at hcount
    exact .inr ⟨rfl, hcount ▸ hover⟩
  | some r' =>
    obtain ⟨hws, -, hdi, hacc⟩ := terminate_numbers ht
    refine .inl ⟨r', rfl, ⟨terminate_range h.range ht, ?_, ?_, fun hnil => ?_⟩, hdi⟩
    · rw [hws, wordsAtEnd_value, wordNumbers_length, h.value]
    · rw [← wordNumbers_length r', hws, wordsAtEnd_length, wordNumbers_length, hcount]
    · rw [wordNumbers, hnil, List.map_nil] at hws
      exact hacc.trans (BitVec.eq_of_toNat_eq (eq_zero_of_wordsAtEnd_eq_nil hws.symm))

theorem shiftLeft_or_toNat {a c : Word} (ha : a.toNat < 2 ^ 32) (hc : c.toNat < 2 ^ 32) :
    ((c <<< 32) ||| a).toNat = a.toNat + 2 ^ 32 * c.toNat := by
  have hs : (c <<< 32).toNat = c.toNat <<< 32 := by
    rw [BitVec.toNat_shiftLeft, Nat.mod_eq_of_lt]
    rw [Nat.shiftLeft_eq]
    omega
  rw [BitVec.toNat_or, hs, ← Nat.shiftLeft_add_eq_or_of_lt ha, Nat.shiftLeft_eq]
  ring

/-- The 64-bit integer is the number of the words, where their count selects it (`43_decoder.md` R146, R147). -/
theorem Ended.res64_toNat (h : Ended w nmax r b v) (hk : kindOfWords w r.dnw = .u64) :
    (res64OfWords w r).toNat = v := by
  rw [h.range.dnw] at hk
  rw [← h.value, wordNumbers]
  have hclear := h.clear
  have hlt := h.range.dws
  unfold res64OfWords
  match hd : r.dws, w with
  | [], .w64 => simp [hclear hd]
  | [], .w32 => rfl
  | [a], _ => simp
  | [a, c], .w32 =>
    rw [hd] at hlt
    simpa [Width.bits] using shiftLeft_or_toNat (hlt a (by simp)) (hlt c (by simp))
  | _ :: _ :: _, .w64 => simp [hd, kindOfWords] at hk
  | _ :: _ :: _ :: _, .w32 => simp [hd, kindOfWords] at hk

theorem resultValue_finishDecode {s : State} (h : Ended s.cfg.width nmax r b v) :
    resultValue (finishDecode s r) = v := by
  unfold finishDecode
  cases hk : kindOfWords s.cfg.width r.dnw with
  | u64 => exact h.res64_toNat hk
  | big =>
    simp only [resultValue, doneDecodeBig_res, doneDecodeBig_cfg, readCell_writeResultWords, h.range.dnw]
    rw [sum_words_eq_wordsValue]
    exact h.value

theorem finishDecode_ok (s : State) (r : DecRegs) : (finishDecode s r).res.ok = true := by
  rcases finishDecode_cases s r with h | h <;> rw [h] <;> rfl

theorem finishDecode_count (s : State) (r : DecRegs) : (finishDecode s r).res.count = r.di := by
  rcases finishDecode_cases s r with h | h <;> rw [h] <;> rfl

/-- The end of a decode overwrites the phase and the Decoder's registers. -/
theorem finishDecode_withPhase (s : State) (ph : Phase) (q r : DecRegs) :
    finishDecode { s with phase := ph, dec := q } r = finishDecode s r := by
  unfold finishDecode
  dsimp only
  cases kindOfWords s.cfg.width r.dnw <;> rfl

end
end Sys2Proof.Machine

/-! A decode of a terminated input, from the request to the result (`43_decoder.md` R148, R153). -/
namespace Sys2Proof.Machine

section
variable {s : State} {pv n k : Nat}

theorem streamValue_zero (s : State) (pv n : Nat) : streamValue s pv n 0 = pv % 2 ^ n := by
  rw [streamValue, Finset.sum_range_zero, Nat.add_zero]

theorem streamValue_succ (s : State) (pv n j : Nat) :
    streamValue s pv n (j + 1) = streamValue s pv n j + (payload (readInput s j)).toNat * 2 ^ (n + 7 * j) := by
  rw [streamValue, Finset.sum_range_succ, ← Nat.add_assoc, payload_toNat]
  rfl

/-- A terminated decode has at least the words closed out at boundaries before its end. -/
theorem div_le_wordsOfStream (w : Width) {m b : Nat} (v : Nat) (h : m ≤ b) : m / w.bits ≤ wordsOfStream w b v :=
  (Nat.div_le_div_right h).trans (Nat.le_add_right _ _)

/-- The registers have taken in the seed and the bytes before the input index. -/
def HasRead (s : State) (pv n : Nat) (r : DecRegs) : Prop :=
  Taken s.cfg.width s.cfg.nmax r (n + 7 * r.di) (streamValue s pv n r.di)

/-- The registers have ended with the seed and the bytes up to the terminator at index `k`. -/
def HasEnded (s : State) (pv n k : Nat) (r : DecRegs) : Prop :=
  Ended s.cfg.width s.cfg.nmax r (n + 7 * (k + 1)) (streamValue s pv n (k + 1)) ∧ r.di = k + 1

/-- The build does not hold the words of the input terminated at index `k` (`60_exceptions.md` R178). -/
def TooLong (s : State) (pv n k : Nat) : Prop :=
  overNmax s.cfg.nmax (wordsOfStream s.cfg.width (n + 7 * (k + 1)) (streamValue s pv n (k + 1))) = true

/-- All a decode of an input terminated at index `k` can answer: its result, or the refusal for want of a word. -/
def AnswersAt (s : State) (pv n k : Nat) (o : Host.Outcome State Fault Refusal) : Prop :=
  (∃ r, o = .next (finishDecode s r) ∧ HasEnded s pv n k r) ∨ (o = .refused .nmaxExceeded ∧ TooLong s pv n k)

/-- The phase and the registers a decode goes on from have no part in what it may answer. -/
theorem AnswersAt.of_withPhase {ph : Phase} {q : DecRegs} {o : Host.Outcome State Fault Refusal}
    (h : AnswersAt { s with phase := ph, dec := q } pv n k o) : AnswersAt s pv n k o := by
  rcases h with ⟨r, he, hended⟩ | hrefused
  · exact .inl ⟨r, he.trans (congrArg _ (finishDecode_withPhase s ph q r)), hended⟩
  · exact .inr hrefused

/-- Taking in the byte at the input index. -/
theorem HasRead.byteStep {r : DecRegs} (h : HasRead s pv n r) :
    (∃ r', byteStep s.cfg.width s.cfg.nmax (payload (readInput s r.di)) (nextIndex r) = some r' ∧
        HasRead s pv n r' ∧ r'.di = r.di + 1) ∨
      (byteStep s.cfg.width s.cfg.nmax (payload (readInput s r.di)) (nextIndex r) = none ∧
        overNmax s.cfg.nmax ((n + 7 * (r.di + 1)) / s.cfg.width.bits) = true) := by
  rcases Taken.byteStep h.nextIndex (payload (readInput s r.di)) with ⟨r', hs, ht, hdi⟩ | hnone
  · refine .inl ⟨r', hs, ?_, hdi⟩
    rw [← streamValue_succ] at ht
    rw [HasRead, hdi]
    exact ht
  · exact .inr hnone

theorem takeTerm_answers (h : HasRead s pv n s.dec) :
    AnswersAt s pv n s.dec.di (takeTerm (payload (readInput s s.dec.di)) s) := by
  unfold takeTerm
  rcases h.byteStep with ⟨r, hs, hread, hdi⟩ | ⟨hs, hover⟩
  · rw [HasRead, hdi] at hread
    rcases hread.terminate with ⟨r', ht, hended, hdi'⟩ | ⟨ht, hover⟩
    · exact .inl ⟨r', by simp only [hs, ht], hended, hdi'.trans hdi⟩
    · exact .inr ⟨by simp only [hs, ht], hover⟩
  · exact .inr ⟨by simp only [hs], overNmax_mono hover (div_le_wordsOfStream _ _ le_rfl)⟩

/-- By induction on the bytes the loop may still read: a byte before the terminator is taken in, the terminator ends
the loop. -/
theorem decodeLoop_answers (fuel : Nat) (h : HasRead s pv n s.dec) (hk : TerminatorAt s k) (hdi : s.dec.di ≤ k)
    (hfuel : k < s.dec.di + fuel) : AnswersAt s pv n k (decodeLoop fuel s) := by
  induction fuel generalizing s with
  | zero => omega
  | succ fuel ih =>
    obtain ⟨hlen, hterm, hcont⟩ := hk
    rw [decodeLoop, if_pos (hdi.trans_lt hlen), contFlag_eq]
    rcases hdi.lt_or_eq with hlt | heq
    · rw [if_pos (decide_eq_true (hcont _ hlt)), takeCont]
      rcases h.byteStep with ⟨r, hs, hread, hdi'⟩ | ⟨hs, hover⟩
      · simp only [hs]
        exact (ih (s := { s with dec := r }) hread ⟨hlen, hterm, hcont⟩ (by simp only; omega)
          (by simp only; omega)).of_withPhase (ph := s.phase)
      · exact .inr ⟨by simp only [hs], overNmax_mono hover (div_le_wordsOfStream _ _ (by omega))⟩
    · subst heq
      rw [if_neg (by simpa using hterm)]
      exact takeTerm_answers h

theorem runDecode_answers {pre : BitVec 64} {pb : BitVec 7} (hpb : pb.toNat ≤ 64) (hk : TerminatorAt s k) :
    AnswersAt s pre.toNat pb.toNat k (runDecode pre pb s) := by
  unfold runDecode beginDecode
  rcases seed_taken s.cfg.width s.cfg.nmax pre s.dec hpb with ⟨r, hs, htaken, hdi⟩ | ⟨hs, hover⟩
  · have hread : HasRead s pre.toNat pb.toNat r := by
      rw [HasRead, hdi, streamValue_zero]
      exact htaken
    have hlen := hk.1
    simp only [hs]
    exact (decodeLoop_answers (s := { s with phase := .decoding, dec := r }) s.ports.len hread hk
      (by simp only; omega) (by simp only; omega)).of_withPhase
  · exact .inr ⟨by simp only [hs], overNmax_mono hover (div_le_wordsOfStream _ _ (by omega))⟩

end

/-- A decode that is not refused runs with the seed of its request. -/
theorem exec_eq_runDecode {i : Instr} {s : State} {pv n : Nat} (h : DecodeRequest i s pv n) :
    ∃ (pre : BitVec 64) (pb : BitVec 7),
      pv = pre.toNat ∧ n = pb.toNat ∧ n ≤ 64 ∧ exec i s = runDecode pre pb s := by
  obtain ⟨howned, ⟨rfl, rfl, rfl⟩ | ⟨rfl, rfl, rfl, hn⟩⟩ := h
  · exact ⟨0, 0, rfl, rfl, Nat.zero_le _, by rw [exec_dec, execDec, (refusalDec_eq_none s).2 howned]⟩
  · exact ⟨_, _, rfl, rfl, hn, by rw [exec_decC, execDecC, (refusalDecC_eq_none s).2 ⟨hn, howned⟩]⟩

/-- All a decode of a terminated input can answer, for both operations and every seed. -/
theorem exec_answers {i : Instr} {s : State} {pv n k : Nat} (h : DecodeRequest i s pv n) (hk : TerminatorAt s k) :
    AnswersAt s pv n k (exec i s) := by
  obtain ⟨pre, pb, rfl, rfl, hpb, he⟩ := exec_eq_runDecode h
  rw [he]
  exact runDecode_answers hpb hk

/-- Settles O24: with the words in the build, the decode is not refused, and it ends with the number it has taken in. -/
theorem decodeDeliversTheSumOfItsGroups : Obligations.DecodeDeliversTheSumOfItsGroups := by
  unfold Obligations.DecodeDeliversTheSumOfItsGroups
  intro i s pv n k h hk hfits
  rcases exec_answers h hk with ⟨r, he, hended, hdi⟩ | ⟨-, hlong⟩
  · have hcount : (finishDecode s r).res.count = k + 1 := (finishDecode_count s r).trans hdi
    exact ⟨finishDecode s r, he, finishDecode_ok s r, hcount, hcount ▸ hk.1, resultValue_finishDecode hended⟩
  · rw [TooLong, (overNmax_eq_false _ _).2 hfits] at hlong
    exact absurd hlong (by simp)

end Sys2Proof.Machine

/-! What an encode writes: the canonical form of its Value from offset 0 on, as far as the buffer goes
(`42_encoder.md` R111, R119, R122). -/
namespace Sys2Proof.Machine

section
variable {w : Width} {cap v y m : Nat} {r : EncRegs} {out : Memory}

/-! ## The canonical form, group by group -/

theorem canonicalLength_sub_add_one (v : Nat) : canonicalLength v - 1 + 1 = canonicalLength v :=
  Nat.sub_add_cancel (canonicalLength_pos v)

theorem lt_canonicalLength_iff (v p : Nat) : p < canonicalLength v ↔ p = 0 ∨ v / 2 ^ (7 * p) ≠ 0 := by
  have h := canonicalLength_le_iff v p
  rw [Ne, Nat.div_eq_zero_iff_lt (Nat.pow_pos (by norm_num))]
  omega

theorem div_pow_succ_group (v p : Nat) : v / 2 ^ (7 * (p + 1)) = v / 2 ^ (7 * p) / 128 := by
  rw [Nat.mul_add, pow_add, ← Nat.div_div_eq_div_mul]
  rfl

theorem canonicalByte_toNat (v i : Nat) :
    (canonicalByte v i).toNat = v / 2 ^ (7 * i) % 128 + if i + 1 < canonicalLength v then 128 else 0 := by
  rw [canonicalByte, BitVec.toNat_ofNat, Nat.mod_eq_of_lt]
  split <;> omega

/-- A byte of the canonical form is the wire byte of the next group of what is left of the Value. -/
theorem wireByte_eq_canonicalByte {p : Nat} {more : Bool} {g : Payload} (hg : g.toNat = v / 2 ^ (7 * p) % 128)
    (hmore : more = true ↔ v / 2 ^ (7 * (p + 1)) ≠ 0) : wireByte more g = canonicalByte v p := by
  have hflag : p + 1 < canonicalLength v ↔ more = true := by
    rw [lt_canonicalLength_iff, hmore]
    simp
  refine BitVec.eq_of_toNat_eq ?_
  rw [wireByte_toNat, canonicalByte_toNat, hg, if_congr hflag rfl rfl]

/-! ## Emissions of a canonical form -/

/-- The first `p` bytes of the canonical form of `v` stand in the buffer, within the capacity. -/
structure Holds (cap v p : Nat) (out : Memory) : Prop where
  fits : p ≤ cap
  bytes : ∀ a < p, readCell out a = canonicalByte v a

/-- An emission of the canonical form of `v`: it goes on with registers that satisfy `P`, or the error was raised at
the capacity, short of the canonical length. -/
def Emits (cap v : Nat) (P : EncRegs → Prop) (e : Emission) : Prop :=
  match e with
  | .going r out => Holds cap v r.epos out ∧ P r
  | .raised _ out => Holds cap v cap out ∧ cap < canonicalLength v

/-- An emission of the whole canonical form of `v`, or of as much of it as the capacity allows. -/
def EmitsAll (cap v : Nat) (e : Emission) : Prop := Emits cap v (fun r => r.epos = canonicalLength v) e

theorem emits_andThen {P Q : EncRegs → Prop} {e : Emission} {f : EncRegs → Memory → Emission}
    (he : Emits cap v Q e) (hf : ∀ r out, Holds cap v r.epos out → Q r → Emits cap v P (f r out)) :
    Emits cap v P (andThen e f) := by
  cases e with
  | going r out => exact hf r out he.1 he.2
  | raised r out => exact he

theorem emits_mono {P Q : EncRegs → Prop} {e : Emission} (he : Emits cap v Q e) (h : ∀ r, Q r → P r) :
    Emits cap v P e := by
  cases e with
  | going r out => exact ⟨he.1, h r he.2⟩
  | raised r out => exact he

theorem holds_zero (cap v : Nat) (out : Memory) : Holds cap v 0 out := ⟨Nat.zero_le _, nofun⟩

/-- The next byte of the canonical form is written, or the capacity is used up. -/
theorem emit_emits (hh : Holds cap v r.epos out) (hlt : r.epos < canonicalLength v) {b : Byte}
    (hb : b = canonicalByte v r.epos) :
    Emits cap v (fun r' => r' = { r with epos := r.epos + 1 }) (emit cap b r out) := by
  obtain ⟨hfits, hbytes⟩ := hh
  rcases hfits.lt_or_eq with hc | hc
  · rw [emit_of_lt _ _ _ _ hc]
    refine ⟨⟨hc, fun a ha => ?_⟩, rfl⟩
    rw [writeOutput, readCell_writeCell]
    split
    · next h => rw [h, hb]
    · exact hbytes a (by dsimp only at ha; omega)
  · rw [emit_of_le _ _ _ _ hc.ge]
    exact ⟨⟨le_rfl, hc ▸ hbytes⟩, hc ▸ hlt⟩

theorem shiftRight_seven_toNat (acc : Word) : (acc >>> 7).toNat = acc.toNat / 128 := by
  rw [BitVec.toNat_ushiftRight, Nat.shiftRight_eq_div_pow]

/-! ## A register emptied group by group (`42_encoder.md` R112, R116) -/

/-- By induction on the iterations left, for the loop of ENC.U64 and for the final flush, which differ in the register
`reg` they empty: it holds what is left of the Value, and the last group is the one that leaves it zero. -/
theorem loop_emitsAll {loop : Nat → EncRegs → Memory → Emission} {reg : EncRegs → Word}
    {shift : EncRegs → EncRegs}
    (hloop : ∀ k r out, loop (k + 1) r out =
      andThen (emit cap (wireByte (decide (reg r >>> 7 ≠ 0)) (lowGroup (reg r))) (shift r) out)
        fun r out => if reg r = 0 then .going r out else loop k r out)
    (hpos : ∀ r, (shift r).epos = r.epos) (hreg : ∀ r p, reg { shift r with epos := p } = reg r >>> 7)
    (k : Nat) (hh : Holds cap v r.epos out) (hrest : v / 2 ^ (7 * r.epos) = (reg r).toNat)
    (hlt : r.epos < canonicalLength v) (hk : canonicalLength v ≤ r.epos + k) :
    EmitsAll cap v (loop k r out) := by
  induction k generalizing r out with
  | zero => omega
  | succ k ih =>
    have hnext : v / 2 ^ (7 * (r.epos + 1)) = (reg r >>> 7).toNat := by
      rw [div_pow_succ_group, hrest, shiftRight_seven_toNat]
    have hzero : reg r >>> 7 = 0 ↔ v / 2 ^ (7 * (r.epos + 1)) = 0 := by
      rw [hnext, ← BitVec.toNat_inj]
      rfl
    rw [hloop]
    refine emits_andThen (emit_emits (by rwa [hpos]) (by rwa [hpos]) ?_) fun r' out' hh' hr' => ?_
    · rw [hpos]
      exact wireByte_eq_canonicalByte (by rw [lowGroup_toNat, hrest]) (by rw [decide_eq_true_eq, Ne, hzero])
    · have hpos' : r'.epos = r.epos + 1 := by rw [hr', hpos]
      have hreg' : reg r' = reg r >>> 7 := by rw [hr', hreg]
      have hend : reg r >>> 7 = 0 ↔ canonicalLength v ≤ r.epos + 1 := by
        rw [hzero, ← not_lt, lt_canonicalLength_iff]
        simp
      rw [hreg']
      split
      · next h0 => exact ⟨hh', by have := hend.1 h0; omega⟩
      · next h0 => exact ih hh' (by rw [hpos', hreg', hnext]) (by have := mt hend.2 h0; omega) (by omega)

/-- What is left of the Value in a register is at most ten groups. -/
theorem canonicalLength_le_add_ten {p : Nat} {acc : Word} (h : v / 2 ^ (7 * p) = acc.toNat) :
    canonicalLength v ≤ p + 10 := by
  have hacc := acc.isLt
  rw [← h, Nat.div_lt_iff_lt_mul (Nat.pow_pos (by norm_num)), ← pow_add] at hacc
  exact (canonicalLength_le_iff _ _).2
    ⟨by omega, hacc.trans_le (Nat.pow_le_pow_right (by norm_num) (by omega))⟩

theorem encodeU64Loop_emitsAll (hh : Holds cap v r.epos out) (hrest : v / 2 ^ (7 * r.epos) = r.ev.toNat)
    (hlt : r.epos < canonicalLength v) : EmitsAll cap v (encodeU64Loop cap 10 r out) :=
  loop_emitsAll (reg := EncRegs.ev) (shift := fun r => { r with ev := r.ev >>> 7 }) (fun _ _ _ => rfl)
    (fun _ => rfl) (fun _ _ => rfl) 10 hh hrest hlt (canonicalLength_le_add_ten hrest)

theorem finalFlush_emitsAll (hh : Holds cap v r.epos out) (hrest : v / 2 ^ (7 * r.epos) = r.eacc.toNat)
    (hlt : r.epos < canonicalLength v) : EmitsAll cap v (finalFlush cap 10 r out) :=
  loop_emitsAll (reg := EncRegs.eacc) (shift := fun r => { r with eacc := r.eacc >>> 7 }) (fun _ _ _ => rfl)
    (fun _ => rfl) (fun _ _ => rfl) 10 hh hrest hlt (canonicalLength_le_add_ten hrest)

/-! ## The word-array path (`42_encoder.md` R114 to R117) -/

/-- What is left of the Value `v` is the accumulator's `m` bits and, above them, the number `y` of the halves to
come. -/
structure Pending (v m y : Nat) (r : EncRegs) : Prop where
  acc : r.eacc.toNat < 2 ^ m
  rest : v / 2 ^ (7 * r.epos) = r.eacc.toNat + 2 ^ m * y

/-- The whole alignment cycle in one equation: remainder and half are the groups flushed and the next remainder
(`40_bitgroup_tables.md` R91). -/
theorem shift_add_half (w : Width) (e : Fin 14) :
    (bitGroupTable w e).shift + w.half = (bitGroupTable w (e + 1)).shift + 7 * (bitGroupTable w e).groups := by
  revert e
  cases w <;> decide

@[simp] theorem shift_zero (w : Width) : (bitGroupTable w 0).shift = 0 := by cases w <;> rfl

theorem bits_eq_two_halves (w : Width) : w.bits = w.half * 2 := by cases w <;> rfl

theorem shift_add_half_le_bits (w : Width) (e : Fin 14) : (bitGroupTable w e).shift + w.half ≤ w.bits := by
  revert e
  cases w <;> decide

theorem add_two_pow_mul_ne_zero (x m : Nat) (hy : y ≠ 0) : x + 2 ^ m * y ≠ 0 := by
  have := Nat.mul_pos (Nat.pow_pos (n := m) (show 0 < 2 by norm_num)) (Nat.pos_of_ne_zero hy)
  omega

theorem word_toNat_ne_zero {a : Word} (h : a ≠ 0) : a.toNat ≠ 0 := BitVec.toNat_ne_iff_ne.2 h

/-- While more halves are to come there is a byte to write. -/
theorem Pending.lt_canonicalLength (h : Pending v m y r) (hy : y ≠ 0) : r.epos < canonicalLength v := by
  rw [lt_canonicalLength_iff, h.rest]
  exact .inr (add_two_pow_mul_ne_zero _ m hy)

/-- A placed half is added above the remainder: neither the shift nor the register's width cuts a bit off. -/
theorem placeHalf_eacc_toNat (half : Half) {h : Word} (hh : h.toNat < 2 ^ w.half)
    (hacc : r.eacc.toNat < 2 ^ (bitGroupTable w r.estep).shift) :
    (placeHalf w half h r).eacc.toNat = r.eacc.toNat + h.toNat * 2 ^ (bitGroupTable w r.estep).shift ∧
      (placeHalf w half h r).eacc.toNat < 2 ^ ((bitGroupTable w r.estep).shift + w.half) := by
  have hle := shift_add_half_le_bits w r.estep
  simp only [placeHalf]
  generalize (bitGroupTable w r.estep).shift = k at hacc hle
  have hlt : r.eacc.toNat + h.toNat * 2 ^ k < 2 ^ (k + w.half) := by
    have := Nat.mul_le_mul_right (2 ^ k) (Nat.succ_le_of_lt hh)
    rw [Nat.succ_mul, ← pow_add, add_comm w.half] at this
    omega
  have hbits := hlt.trans_le (Nat.pow_le_pow_right (by norm_num) hle)
  have hshift : (h <<< k).toNat = h.toNat <<< k := by
    have := hbits.trans_le (Nat.pow_le_pow_right (by norm_num) (bits_le w))
    rw [BitVec.toNat_shiftLeft, Nat.mod_eq_of_lt]
    rw [Nat.shiftLeft_eq]
    omega
  rw [truncWord_toNat, BitVec.toNat_or, hshift, placed_eq_add _ hacc, Nat.mod_eq_of_lt hbits]
  exact ⟨rfl, hlt⟩

/-- A half of the number to come becomes the accumulator's, and no bit is lost (`40_bitgroup_tables.md` R96). -/
theorem placeHalf_pending (half : Half) {h : Word} (hh : h.toNat < 2 ^ w.half)
    (hp : Pending v (bitGroupTable w r.estep).shift (h.toNat + 2 ^ w.half * y) r) :
    Pending v ((bitGroupTable w r.estep).shift + w.half) y (placeHalf w half h r) := by
  obtain ⟨hacc, hrest⟩ := hp
  obtain ⟨heacc, hlt⟩ := placeHalf_eacc_toNat half hh hacc
  refine ⟨hlt, ?_⟩
  rw [heacc, pow_add]
  exact hrest.trans (by ring)

/-- A group is flushed with the flag, which is right while more halves are to come. -/
theorem flushGroup_emits (hh : Holds cap v r.epos out) (hp : Pending v (m + 7) y r) (hy : y ≠ 0) :
    Emits cap v (fun r' => Pending v m y r' ∧ r'.estep = r.estep) (flushGroup cap r out) := by
  obtain ⟨hacc, hrest⟩ := hp
  have hrest' : v / 2 ^ (7 * r.epos) = r.eacc.toNat + 128 * (2 ^ m * y) := by rw [hrest, pow_add]; ring
  have hnext : v / 2 ^ (7 * (r.epos + 1)) = r.eacc.toNat / 128 + 2 ^ m * y := by
    rw [div_pow_succ_group, hrest', Nat.add_mul_div_left _ _ (by norm_num)]
  refine emits_andThen (emit_emits hh (Pending.lt_canonicalLength ⟨hacc, hrest⟩ hy) ?_) fun r' out' hh' hr' => ?_
  · refine wireByte_eq_canonicalByte ?_ ?_
    · rw [lowGroup_toNat, hrest', Nat.add_mul_mod_self_left]
    · rw [hnext]
      exact iff_of_true rfl (add_two_pow_mul_ne_zero _ m hy)
  · subst hr'
    refine ⟨hh', ⟨?_, ?_⟩, rfl⟩
    · rw [shiftRight_seven_toNat, Nat.div_lt_iff_lt_mul (by norm_num)]
      rwa [pow_add] at hacc
    · rw [shiftRight_seven_toNat]
      exact hnext

theorem flushGroups_emits (k : Nat) (hh : Holds cap v r.epos out) (hp : Pending v (m + 7 * k) y r) (hy : y ≠ 0) :
    Emits cap v (fun r' => Pending v m y r' ∧ r'.estep = r.estep) (flushGroups cap k r out) := by
  induction k generalizing r out with
  | zero => exact ⟨hh, hp, rfl⟩
  | succ k ih =>
    refine emits_andThen (flushGroup_emits hh hp hy) fun r' out' hh' ⟨hp', he'⟩ => ?_
    rw [← he']
    exact ih hh' hp'

theorem wordsValue_ne_zero (as : List Word) (hlast : as.getLastD 0 ≠ 0) :
    wordsValue w (as.map BitVec.toNat) ≠ 0 := by
  induction as with
  | nil => exact absurd rfl hlast
  | cons a as ih =>
    rw [List.map_cons, wordsValue_cons]
    cases as with
    | nil => simpa using word_toNat_ne_zero hlast
    | cons a' as => exact add_two_pow_mul_ne_zero _ _ (ih hlast)

/-- Between two halves: what is left of the Value `v` is the remainder, as long as the step's shift, and above it the
number `y` of the halves to come. -/
def Aligned (w : Width) (v y : Nat) (r : EncRegs) : Prop := Pending v (bitGroupTable w r.estep).shift y r

theorem halfStep_emits (half : Half) {h : Word} (hh : Holds cap v r.epos out) (hlt : h.toNat < 2 ^ w.half)
    (hp : Aligned w v (h.toNat + 2 ^ w.half * y) r) (hy : y ≠ 0) :
    Emits cap v (Aligned w v y) (halfStep w cap half h r out) := by
  have hplaced := placeHalf_pending half hlt hp
  rw [shift_add_half] at hplaced
  refine emits_andThen (flushGroups_emits _ hh hplaced hy) fun r' out' hh' ⟨hp', he'⟩ => ⟨hh', ?_⟩
  rw [Aligned, show r'.estep = r.estep from he']
  exact ⟨hp'.acc, hp'.rest⟩

/-- The last half is placed and flushed to its end. -/
theorem finalHalf_emitsAll (half : Half) {h : Word} (hh : Holds cap v r.epos out) (hlt : h.toNat < 2 ^ w.half)
    (hp : Aligned w v (h.toNat + 2 ^ w.half * 0) r) (h0 : h.toNat + 2 ^ w.half * 0 ≠ 0) :
    EmitsAll cap v (finalFlush cap 10 (placeHalf w half h r) out) := by
  have hplaced : Pending v ((bitGroupTable w r.estep).shift + w.half) 0 (placeHalf w half h r) :=
    placeHalf_pending half hlt hp
  exact finalFlush_emitsAll hh (by simpa using hplaced.rest) (hp.lt_canonicalLength h0)

theorem halves_toNat {a : Word} (ha : a.toNat < 2 ^ w.bits) :
    a.toNat = (lowHalf w a).toNat + 2 ^ w.half * (highHalf w a).toNat := by
  rw [lowHalf_toNat, highHalf_toNat w a ha, Nat.mod_add_div]

theorem lastWord_emitsAll {a : Word} (hh : Holds cap v r.epos out) (ha : a.toNat < 2 ^ w.bits)
    (hp : Aligned w v a.toNat r) (h0 : a ≠ 0) : EmitsAll cap v (lastWord w cap a r out) := by
  replace h0 := word_toNat_ne_zero h0
  rw [halves_toNat ha] at hp h0
  unfold lastWord
  split
  · next hz =>
      rw [hz] at hp h0
      exact finalHalf_emitsAll .low hh (lowHalf_lt w a) hp h0
  · next hnz =>
      have hhigh := word_toNat_ne_zero hnz
      exact emits_andThen (halfStep_emits .low hh (lowHalf_lt w a) hp hhigh) fun r' out' hh' hp' =>
        finalHalf_emitsAll .high hh' (highHalf_lt w a) hp' hhigh

theorem innerWord_emits {a : Word} (hh : Holds cap v r.epos out) (ha : a.toNat < 2 ^ w.bits)
    (hp : Aligned w v (a.toNat + 2 ^ w.bits * y) r) (hy : y ≠ 0) :
    Emits cap v (Aligned w v y) (innerWord w cap a r out) := by
  have hsplit : a.toNat + 2 ^ w.bits * y =
      (lowHalf w a).toNat + 2 ^ w.half * ((highHalf w a).toNat + 2 ^ w.half * y) := by
    rw [halves_toNat ha, bits_eq_two_halves, pow_mul]
    ring
  rw [hsplit] at hp
  have hhigh : (highHalf w a).toNat + 2 ^ w.half * y ≠ 0 := add_two_pow_mul_ne_zero _ _ hy
  exact emits_andThen (halfStep_emits .low hh (lowHalf_lt w a) hp hhigh) fun _ _ hh hp =>
    emits_andThen (halfStep_emits .high hh (highHalf_lt w a) hp hy) fun _ _ hh hp => ⟨hh, hp.acc, hp.rest⟩

/-- By induction on the words left: what is left of the Value is the remainder and, above it, these words. -/
theorem encodeWords_emitsAll (as : List Word) (hh : Holds cap v r.epos out) (has : ∀ a ∈ as, a.toNat < 2 ^ w.bits)
    (hlast : as.getLastD 0 ≠ 0) (hp : Aligned w v (wordsValue w (as.map BitVec.toNat)) r) :
    EmitsAll cap v (encodeWords w cap as r out) := by
  induction as generalizing r out with
  | nil => exact absurd rfl hlast
  | cons a as ih =>
    cases as with
    | nil => exact lastWord_emitsAll hh (has a (by simp)) (by simpa using hp) hlast
    | cons a' as =>
      exact emits_andThen (innerWord_emits hh (has a (by simp)) hp (wordsValue_ne_zero _ hlast))
        fun r' out' hh' hp' => ih hh' (fun x hx => has x (by simp [hx])) hlast hp'

end

/-! ## The Value on `VW` -/

section
variable {s : State} {v : Nat}

@[simp] theorem valueWords_length (s : State) : (valueWords s).length = s.ports.nwords := by simp [valueWords]

theorem valueWords_getD {i : Nat} (h : i < s.ports.nwords) : (valueWords s).getD i 0 = readValueWord s i := by
  simp [valueWords, h]

theorem valueWords_lt (s : State) : ∀ a ∈ valueWords s, a.toNat < 2 ^ s.cfg.width.bits := by
  intro a ha
  obtain ⟨i, -, rfl⟩ := List.mem_map.1 ha
  exact readValueWord_lt s i

theorem bigValue_eq_wordsValue (s : State) :
    bigValue s = wordsValue s.cfg.width ((valueWords s).map BitVec.toNat) := by
  rw [← sum_words_eq_wordsValue, valueWords_length, bigValue]
  exact Finset.sum_congr rfl fun i hi => by rw [valueWords_getD (Finset.mem_range.1 hi)]

/-- A Value that is not zero has a highest word, and it is not zero (`60_exceptions.md` R178). -/
theorem NormalForm.exists_top (h : NormalForm s) (hz : isZeroValue s = false) :
    ∃ n, s.ports.nwords = n + 1 ∧ readValueWord s n ≠ 0 := by
  simp only [isZeroValue, Bool.or_eq_false_iff, Bool.and_eq_false_iff, decide_eq_false_iff_not] at hz
  obtain ⟨n, hn⟩ := Nat.exists_eq_succ_of_ne_zero hz.1
  refine ⟨n, hn, ?_⟩
  cases n with
  | zero => exact hz.2.resolve_left (absurd hn)
  | succ n => simpa [hn] using h (by omega)

theorem NormalForm.last_valueWord_ne_zero (h : NormalForm s) (hz : isZeroValue s = false) :
    (valueWords s).getLastD 0 ≠ 0 := by
  obtain ⟨n, hn, htop⟩ := h.exists_top hz
  simpa [valueWords, hn, List.range_succ] using htop

theorem bigValue_of_isZeroValue (hz : isZeroValue s = true) : bigValue s = 0 := by
  simp only [isZeroValue, Bool.or_eq_true, Bool.and_eq_true, decide_eq_true_eq] at hz
  rcases hz with hn | ⟨hn, h0⟩
  · simp [bigValue, hn]
  · simp [bigValue, hn, h0]

/-! ## The two encodes -/

theorem encodeU64Emission_emitsAll (s : State) :
    EmitsAll s.ports.cap s.ports.val64.toNat (encodeU64Emission s) :=
  encodeU64Loop_emitsAll (r := startEncodeU64 s.ports.val64 s.enc) (holds_zero _ _ _) (by simp [startEncodeU64])
    (canonicalLength_pos _)

theorem encodeBigEmission_emitsAll (h : NormalForm s) : EmitsAll s.ports.cap (bigValue s) (encodeBigEmission s) := by
  unfold encodeBigEmission
  cases hz : isZeroValue s with
  | true =>
    rw [if_pos rfl, bigValue_of_isZeroValue hz]
    have hemit := emit_emits (r := startEncodeBig s.cfg.width s.enc) (holds_zero s.ports.cap 0 s.out)
      (canonicalLength_pos 0) (show (0x00 : Byte) = canonicalByte 0 0 by decide)
    exact emits_mono hemit fun r hr => hr ▸ rfl
  | false =>
    rw [if_neg Bool.false_ne_true]
    refine encodeWords_emitsAll _ (holds_zero _ _ _) (valueWords_lt s) (h.last_valueWord_ne_zero hz) ?_
    rw [← bigValue_eq_wordsValue]
    exact ⟨Nat.pow_pos (by norm_num), by simp [startEncodeBig]⟩

/-- An encode that is not refused ends as an emission of its Value's canonical form does. -/
theorem exec_emitsAll {i : Instr} (h : EncodeRequest i s v) :
    ∃ e, exec i s = .next (finishEncode s e) ∧ EmitsAll s.ports.cap v e ∧ Appends s.ports.cap 0 s.out e := by
  obtain ⟨howned, ⟨rfl, rfl⟩ | ⟨rfl, rfl, hnormal, hfits⟩⟩ := h
  · refine ⟨_, ?_, encodeU64Emission_emitsAll s, encodeU64Emission_appends s⟩
    rw [exec_encU64, execEncU64_eq, (refusalEncU64_eq_none s).2 howned]
  · refine ⟨_, ?_, encodeBigEmission_emitsAll hnormal, encodeBigEmission_appends s⟩
    rw [exec_encBig, execEncBig_eq, (refusalEncBig_eq_none s).2 ⟨hfits, howned, hnormal⟩]

/-- An encode into a buffer that is large enough: its results, and every byte of the buffer after it. -/
theorem exec_of_canonicalLength_le {i : Instr} (h : EncodeRequest i s v) (hcap : canonicalLength v ≤ s.ports.cap) :
    ∃ t, exec i s = .next t ∧ t.res.ok = true ∧ t.res.count = canonicalLength v ∧ t.enc.epos = canonicalLength v ∧
      ∀ a, readCell t.out a = if a < canonicalLength v then canonicalByte v a else readCell s.out a := by
  obtain ⟨e, he, hall, happ⟩ := exec_emitsAll h
  refine ⟨_, he, ?_⟩
  cases e with
  | going r out =>
    obtain ⟨hh, hpos⟩ := hall
    refine ⟨rfl, hpos, hpos, fun a => ?_⟩
    split
    · next ha => exact hh.bytes a (hpos.symm ▸ ha)
    · next ha => exact happ.beyond a (hpos.symm ▸ not_lt.1 ha)
  | raised r out => exact absurd hcap (not_le.2 hall.2)

theorem exec_of_lt_canonicalLength {i : Instr} (h : EncodeRequest i s v) (hcap : s.ports.cap < canonicalLength v) :
    ∃ t, exec i s = .next t ∧ t.res.ok = false := by
  obtain ⟨e, he, hall, -⟩ := exec_emitsAll h
  refine ⟨_, he, ?_⟩
  cases e with
  | going r out =>
    obtain ⟨hh, hpos⟩ := hall
    exact absurd (hpos ▸ hh.fits) (not_le.2 hcap)
  | raised r out => rfl

end

/-- Settles O13: the emission ends at the canonical length, or was raised at a capacity below it. -/
theorem encodeWritesTheCanonicalForm : Obligations.EncodeWritesTheCanonicalForm := by
  unfold Obligations.EncodeWritesTheCanonicalForm
  intro i s v h
  rcases Nat.lt_or_ge s.ports.cap (canonicalLength v) with hcap | hcap
  · obtain ⟨t, he, hok⟩ := exec_of_lt_canonicalLength h hcap
    refine ⟨t, he, ?_, fun hle => absurd hle (not_le.2 hcap)⟩
    rw [hok]
    exact iff_of_false Bool.false_ne_true (not_le.2 hcap)
  · obtain ⟨t, he, hok, hcount, hpos, hout⟩ := exec_of_canonicalLength_le h hcap
    exact ⟨t, he, iff_of_true hok hcap, fun _ => ⟨hcount, hpos, fun a ha => by rw [hout, if_pos ha]⟩⟩

/-- Settles O16: each path leaves the canonical form of the Value in a buffer that both found alike. -/
theorem encodePathsAgree : Obligations.EncodePathsAgree := by
  unfold Obligations.EncodePathsAgree
  intro s v hu64 hbig hcap
  obtain ⟨t, het, hokt, hcountt, -, houtt⟩ := exec_of_canonicalLength_le hu64 hcap
  obtain ⟨u, heu, hoku, hcountu, -, houtu⟩ := exec_of_canonicalLength_le hbig hcap
  exact ⟨t, u, het, heu, hokt, hoku, hcountt.trans hcountu.symm, fun a => (houtt a).trans (houtu a).symm⟩

end Sys2Proof.Machine

/-! The size of a Value is the length of its canonical form, on both paths (`41_size_estimator.md` R100, R101). -/
namespace Sys2Proof.Machine

section
variable {s : State}

theorem sizeLoop_sn (k n : Nat) (x : BitVec 64) (hk : canonicalLength x.toNat ≤ k) :
    (sizeLoop k ⟨x, n⟩).sn = n + canonicalLength x.toNat := by
  induction k generalizing x n with
  | zero => exact absurd (canonicalLength_pos x.toNat) (by omega)
  | succ k ih =>
    have hshift := shiftRight_seven_toNat x
    unfold sizeLoop
    split
    · next h0 =>
        replace h0 : x.toNat / 128 = 0 := by rw [← hshift, h0]; rfl
        rw [canonicalLength_of_lt x.toNat (by omega)]
    · next h0 =>
        have hlen := canonicalLength_div x.toNat (hshift ▸ word_toNat_ne_zero h0)
        rw [ih _ _ (by rw [hshift]; omega), hshift, hlen, Nat.add_right_comm, Nat.add_assoc]

/-- A number's bits below place `m` do not count to its length. -/
theorem bitLength_add_mul_pow {x top m : Nat} (hx : x < 2 ^ m) (htop : top ≠ 0) :
    bitLength (x + top * 2 ^ m) = bitLength top + m := by
  refine eq_of_forall_ge_iff fun k => ?_
  rw [bitLength_le_iff]
  rcases Nat.lt_or_ge k m with hk | hk
  · have hpow := Nat.pow_le_pow_right (show 0 < 2 by norm_num) hk.le
    have htop := Nat.le_mul_of_pos_left (2 ^ m) (Nat.pos_of_ne_zero htop)
    exact iff_of_false (by omega) (by omega)
  · obtain ⟨j, rfl⟩ := Nat.exists_eq_add_of_le' hk
    rw [Nat.add_le_add_iff_right, bitLength_le_iff, pow_add, ← Nat.div_lt_iff_lt_mul (Nat.pow_pos (by norm_num)),
      Nat.add_mul_div_right _ _ (Nat.pow_pos (by norm_num)), Nat.div_eq_of_lt hx, zero_add]

theorem sum_readValueWord_lt (s : State) (n : Nat) :
    ∑ i ∈ Finset.range n, (readValueWord s i).toNat * 2 ^ (s.cfg.width.bits * i) < 2 ^ (s.cfg.width.bits * n) := by
  induction n with
  | zero => simp
  | succ n ih =>
    have hword := Nat.mul_le_mul_right (2 ^ (s.cfg.width.bits * n)) (Nat.succ_le_of_lt (readValueWord_lt s n))
    rw [Nat.succ_mul] at hword
    rw [Finset.sum_range_succ, Nat.mul_succ, pow_add, mul_comm (2 ^ _)]
    omega

theorem sizeBigCount_eq (h : NormalForm s) : sizeBigCount s = canonicalLength (bigValue s) := by
  unfold sizeBigCount
  cases hz : isZeroValue s with
  | true =>
    rw [if_pos rfl, bigValue_of_isZeroValue hz]
    rfl
  | false =>
    obtain ⟨n, hn, htop⟩ := h.exists_top hz
    replace htop := word_toNat_ne_zero htop
    have hpos := (lt_bitLength_iff (readValueWord s n).toNat 0).2 (Nat.one_le_iff_ne_zero.2 htop)
    rw [if_neg Bool.false_ne_true, canonicalLength, bigValue, hn, Nat.add_sub_cancel, Finset.sum_range_succ,
      bitLength_add_mul_pow (sum_readValueWord_lt s n) htop, groupsOfBits, Nat.max_eq_right (by omega)]

theorem exec_sizeU64_count (s : State) :
    ∃ t, exec .sizeU64 s = .next t ∧ t.res.count = canonicalLength s.ports.val64.toNat := by
  refine ⟨_, rfl, ?_⟩
  have hten : canonicalLength s.ports.val64.toNat ≤ 0 + 10 := canonicalLength_le_add_ten (Nat.div_one _)
  rw [doneSize_res, sizeLoop_sn 10 0 _ hten, Nat.zero_add]

theorem exec_sizeBig_count (hn : NormalForm s) (hf : FitsNmax s s.ports.nwords) (hc : s.contended = false) :
    ∃ t, exec .sizeBig s = .next t ∧ t.res.count = canonicalLength (bigValue s) :=
  ⟨doneSize s s.size (sizeBigCount s),
    by rw [exec_sizeBig, execSizeBig, (refusalSizeBig_eq_none s).2 ⟨hf, hc, hn⟩], sizeBigCount_eq hn⟩

/-- A successful encode wrote the canonical form: its count, and the bytes of the buffer. -/
theorem canonical_of_exec_ok {i : Instr} {s t : State} {v : Nat} (h : EncodeRequest i s v) (he : exec i s = .next t)
    (hok : t.res.ok = true) :
    t.res.count = canonicalLength v ∧ ∀ a < canonicalLength v, readCell t.out a = canonicalByte v a := by
  obtain ⟨t', he', hcap, hform⟩ := encodeWritesTheCanonicalForm i s v h
  obtain rfl := Host.Outcome.next.inj (he.symm.trans he')
  obtain ⟨hcount, -, hbytes⟩ := hform (hcap.1 hok)
  exact ⟨hcount, hbytes⟩

end

/-- Settles O10: both are the canonical length of the Value. -/
theorem sizeIsTheCountOfTheEncode : Obligations.SizeIsTheCountOfTheEncode := by
  unfold Obligations.SizeIsTheCountOfTheEncode
  intro s t v
  refine ⟨fun h he hok => ?_, fun h he hok => ?_⟩
  · rw [(canonical_of_exec_ok h he hok).1]
    obtain ⟨-, ⟨-, rfl⟩ | ⟨hi, -⟩⟩ := h
    · exact exec_sizeU64_count s
    · exact nomatch hi
  · rw [(canonical_of_exec_ok h he hok).1]
    obtain ⟨⟨-, hcontended⟩, ⟨hi, -⟩ | ⟨-, rfl, hnormal, hfits⟩⟩ := h
    · exact nomatch hi
    · exact exec_sizeBig_count hnormal hfits hcontended

end Sys2Proof.Machine

/-! Decoding a canonical form (`42_encoder.md` R126, `43_decoder.md` R155). -/
namespace Sys2Proof.Machine

section
variable {w : Width} {u : State} {v : Nat}

/-- The input begins with the canonical form of `v`. -/
def StartsCanonical (u : State) (v : Nat) : Prop :=
  canonicalLength v ≤ u.ports.len ∧ ∀ a < canonicalLength v, readInput u a = canonicalByte v a

theorem StartsCanonical.terminatorAt (h : StartsCanonical u v) : TerminatorAt u (canonicalLength v - 1) := by
  obtain ⟨hlen, hbytes⟩ := h
  have hpos := canonicalLength_pos v
  refine ⟨by omega, ?_, fun j hj => ?_⟩
  · rw [hbytes _ (by omega), canonicalByte_toNat, if_neg (by omega)]
    omega
  · rw [hbytes j (by omega), canonicalByte_toNat, if_pos (by omega)]
    omega

/-- By induction on the bytes read: `k` groups of the canonical form are the Value's low `7 k` bits. -/
theorem StartsCanonical.streamValue_eq_mod (h : StartsCanonical u v) {k : Nat} (hk : k ≤ canonicalLength v) :
    streamValue u 0 0 k = v % 2 ^ (7 * k) := by
  induction k with
  | zero => simp [streamValue_zero, Nat.mod_one]
  | succ k ih =>
    have hgroup : (v / 2 ^ (7 * k) % 128 + if k + 1 < canonicalLength v then 128 else 0) % 128 =
        v / 2 ^ (7 * k) % 128 := by
      split <;> omega
    rw [streamValue_succ, ih (by omega), payload_toNat, h.2 k hk, canonicalByte_toNat, hgroup, Nat.zero_add,
      Nat.mul_succ, pow_add, Nat.mod_mul, mul_comm (2 ^ _)]
    rfl

theorem StartsCanonical.streamValue_eq (h : StartsCanonical u v) : streamValue u 0 0 (canonicalLength v) = v := by
  rw [h.streamValue_eq_mod le_rfl, Nat.mod_eq_of_lt ((canonicalLength_le_iff v _).1 le_rfl).2]

theorem kindOfWords_eq_u64_iff (w : Width) (n : Nat) : kindOfWords w n = .u64 ↔ w.bits * n ≤ 64 := by
  cases w with
  | w32 => simp [kindOfWords, Width.bits]; omega
  | w64 => simp [kindOfWords, Width.bits]

@[simp] theorem finishDecode_kind (s : State) (r : DecRegs) :
    (finishDecode s r).res.kind = kindOfWords s.cfg.width r.dnw := by
  unfold finishDecode
  cases kindOfWords s.cfg.width r.dnw <;> rfl

/-- The words a decode closes out at boundaries, and one more when the number is longer than these. -/
theorem wordsOfStream_eq_of_bitLength (w : Width) (b v : Nat) :
    wordsOfStream w b v = b / w.bits + if bitLength v ≤ w.bits * (b / w.bits) then 0 else 1 := by
  refine congrArg _ (if_congr ?_ rfl rfl)
  rw [Nat.div_eq_zero_iff_lt (Nat.pow_pos (by norm_num)), bitLength_le_iff]

/-- The words of the canonical form fit in 64 bits exactly when the Value does (`43_decoder.md` R155). -/
theorem wordsOfStream_canonical_le_iff (w : Width) (v : Nat) :
    w.bits * wordsOfStream w (7 * canonicalLength v) v ≤ 64 ↔ v < 2 ^ 64 := by
  rw [← bitLength_le_iff, wordsOfStream_eq_of_bitLength, canonicalLength, groupsOfBits]
  split
  · next h => cases w <;> simp only [Width.bits] at h ⊢ <;> omega
  · next h => cases w <;> simp only [Width.bits] at h ⊢ <;> omega

theorem StartsCanonical.exec_dec_kind {r : State} (h : StartsCanonical u v) (hreq : DecodeRequest .dec u 0 0)
    (he : exec .dec u = .next r) : r.res.kind = .u64 ↔ v < 2 ^ 64 := by
  rcases exec_answers hreq h.terminatorAt with ⟨q, he', hended, -⟩ | ⟨he', -⟩
  · obtain rfl := Host.Outcome.next.inj (he.symm.trans he')
    rw [canonicalLength_sub_add_one, h.streamValue_eq, Nat.zero_add] at hended
    rw [finishDecode_kind, kindOfWords_eq_u64_iff, hended.range.dnw, hended.length, wordsOfStream_canonical_le_iff]
  · exact nomatch he.symm.trans he'

end

/-- Settles O33: the bytes written are the canonical form, which the decode adds up to the Value again. -/
theorem decodeUndoesEncode : Obligations.DecodeUndoesEncode := by
  unfold Obligations.DecodeUndoesEncode
  intro i s t u v h he hok howned hlen hbytes hfits
  obtain ⟨hcount, hcanonical⟩ := canonical_of_exec_ok h he hok
  rw [hcount] at hlen hbytes hfits ⊢
  have hstart : StartsCanonical u v := ⟨hlen, fun a ha => (hbytes a ha).trans (hcanonical a ha)⟩
  have hreq : DecodeRequest .dec u 0 0 := ⟨howned, .inl ⟨rfl, rfl, rfl⟩⟩
  have hdecode := decodeDeliversTheSumOfItsGroups .dec u 0 0 _ hreq hstart.terminatorAt
  rw [canonicalLength_sub_add_one, hstart.streamValue_eq, Nat.zero_add] at hdecode
  obtain ⟨r, her, hokr, hcountr, -, hvalue⟩ := hdecode hfits
  exact ⟨r, her, hokr, hcountr, hvalue, hstart.exec_dec_kind hreq her⟩

end Sys2Proof.Machine

/-! The registers after a seed and after a wire byte, and the form a decode delivers (`43_decoder.md` R142 to R147,
R157). -/
namespace Sys2Proof.Machine

section
variable {w : Width} {nmax : Option Nat} {r : DecRegs} {b v : Nat}

/-! ## The registers after a seed -/

/-- Dividing a sequence's number by the word's place and cutting it to `W` bits reads the word back. -/
theorem wordsValue_digit {ws : List Nat} (h : ∀ x ∈ ws, x < 2 ^ w.bits) (j : Nat) :
    wordsValue w ws / 2 ^ (w.bits * j) % 2 ^ w.bits = ws.getD j 0 := by
  induction ws generalizing j with
  | nil => simp
  | cons x ws ih =>
    obtain ⟨hx, hws⟩ := List.forall_mem_cons.1 h
    rw [wordsValue_cons]
    cases j with
    | zero => simp [Nat.mod_eq_of_lt hx]
    | succ j =>
      rw [Nat.mul_succ, Nat.add_comm (w.bits * j), pow_add, ← Nat.div_div_eq_div_mul,
        Nat.add_mul_div_left _ _ (Nat.pow_pos (by norm_num)), Nat.div_eq_of_lt hx, Nat.zero_add, ih hws,
        List.getD_cons_succ]

theorem Taken.word_toNat (h : Taken w nmax r b v) {j : Nat} (hj : j < r.dws.length) :
    (r.dws.getD j 0).toNat = v / 2 ^ (w.bits * j) % 2 ^ w.bits := by
  have hlt : ∀ x ∈ wordNumbers r ++ [r.dacc.toNat], x < 2 ^ w.bits := by
    simpa [wordNumbers, or_imp, forall_and] using And.intro h.range.dws h.range.dacc
  have hvalue : wordsValue w (wordNumbers r ++ [r.dacc.toNat]) = v := by
    rw [wordsValue_append_word, wordNumbers_length, h.value]
  rw [← hvalue, wordsValue_digit hlt, List.getD_append _ _ _ _ (by simpa using hj)]
  simp [wordNumbers, hj]

theorem Taken.doff_toNat (h : Taken w nmax r b v) : r.doff.toNat = b % w.bits := by
  rw [← h.bits, Nat.mul_add_mod, Nat.mod_eq_of_lt h.between.doff]

theorem beginDecode_of_seed {s : State} {pv : BitVec 64} {pb : BitVec 7}
    (h : seed s.cfg.width s.cfg.nmax pv pb s.dec = some r) :
    beginDecode pv pb s = some { s with phase := .decoding, dec := r } := by
  rw [beginDecode, h]

/-! ## The registers after a byte -/

theorem wordsAfter_length (w : Width) (ws : List Nat) (acc off p : Nat) :
    (wordsAfter w ws acc off p).length = ws.length + if off + 7 < w.bits then 0 else 1 := by
  by_cases h : off + 7 < w.bits <;> simp [wordsAfter, h]

/-- A byte is taken in when the build holds the words after it. -/
theorem byteStep_of_fits {p : Payload} (hoff : r.doff.toNat < w.bits)
    (hfits : overNmax nmax (wordsAfter w (wordNumbers r) r.dacc.toNat r.doff.toNat p.toNat).length = false) :
    ∃ r', byteStep w nmax p r = some r' := by
  refine Option.ne_none_iff_exists'.1 fun hnone => ?_
  obtain ⟨hfull, hover⟩ := (byteStep_eq_none hoff).1 hnone
  rw [wordsAfter_length, if_neg (Nat.not_lt.2 hfull), wordNumbers_length, hover] at hfits
  exact Bool.noConfusion hfits

@[simp] theorem wordNumbers_nextIndex (r : DecRegs) : wordNumbers (nextIndex r) = wordNumbers r := rfl

theorem takeCont_of_byteStep {s : State} {p : Payload}
    (h : byteStep s.cfg.width s.cfg.nmax p (nextIndex s.dec) = some r) : takeCont p s = .next { s with dec := r } := by
  rw [takeCont, h]

/-! ## The form of the result -/

@[simp] theorem finishDecode_phase (s : State) (r : DecRegs) : (finishDecode s r).phase = .idle := by
  rcases finishDecode_cases s r with h | h <;> rw [h] <;> rfl

@[simp] theorem finishDecode_dec (s : State) (r : DecRegs) : (finishDecode s r).dec = r := by
  rcases finishDecode_cases s r with h | h <;> rw [h] <;> rfl

/-- A 64-bit integer delivers the words that are its number, where their count selects it. -/
theorem delivers_of_kind_u64 {t : State} {ws : List Nat} (hlt : ∀ x ∈ ws, x < 2 ^ t.cfg.width.bits)
    (hcount : kindOfWords t.cfg.width ws.length = .u64) (hkind : t.res.kind = .u64)
    (hvalue : t.res.res64.toNat = wordsValue t.cfg.width ws) : Delivers t ws := by
  unfold Delivers
  match hw : t.cfg.width, ws with
  | .w64, [] => exact ⟨hkind, hvalue⟩
  | .w64, [a] => exact ⟨hkind, by simpa using hvalue⟩
  | .w32, [] => exact ⟨hkind, hvalue⟩
  | .w32, [a] => exact ⟨hkind, by simpa using hvalue⟩
  | .w32, [a, c] =>
    have ha : a < 2 ^ 32 := by simpa [hw, Width.bits] using hlt a
    refine ⟨hkind, ?_⟩
    rw [hvalue, hw, ← Nat.shiftLeft_add_eq_or_of_lt ha, Nat.shiftLeft_eq]
    simp only [wordsValue_cons, wordsValue_nil, Width.bits]
    ring
  | .w64, _ :: _ :: _ => simp [hw, kindOfWords] at hcount
  | .w32, _ :: _ :: _ :: _ => simp [hw, kindOfWords] at hcount

/-- A word sequence delivers the words it holds, where their count selects it. -/
theorem delivers_of_kind_big {t : State} {ws : List Nat} (hcount : kindOfWords t.cfg.width ws.length = .big)
    (hkind : t.res.kind = .big) (hlen : t.res.resNW = ws.length)
    (hwords : ∀ i < ws.length, (readCell t.res.rw i).toNat = ws.getD i 0) : Delivers t ws := by
  unfold Delivers
  match hw : t.cfg.width, ws with
  | .w64, [] | .w64, [a] | .w32, [] | .w32, [a] | .w32, [a, c] => simp [hw, kindOfWords] at hcount
  | .w64, _ :: _ :: _ => exact ⟨hkind, hlen, hwords⟩
  | .w32, _ :: _ :: _ :: _ => exact ⟨hkind, hlen, hwords⟩

/-- A decode delivers the words it ended with (`43_decoder.md` R146, R147). -/
theorem Ended.delivers {s : State} (h : Ended s.cfg.width nmax r b v) :
    Delivers (finishDecode s r) (wordNumbers r) := by
  have hlt : ∀ x ∈ wordNumbers r, x < 2 ^ s.cfg.width.bits := by simpa [wordNumbers] using h.range.dws
  have hdnw : r.dnw = (wordNumbers r).length := by rw [h.range.dnw, wordNumbers_length]
  unfold finishDecode
  cases hk : kindOfWords s.cfg.width r.dnw with
  | u64 => exact delivers_of_kind_u64 hlt (hdnw ▸ hk) rfl ((h.res64_toNat hk).trans h.value.symm)
  | big =>
    refine delivers_of_kind_big (hdnw ▸ hk) rfl hdnw fun i hi => ?_
    rw [wordNumbers_length] at hi
    simp [readCell_writeResultWords, wordNumbers, hi]

/-! ## A decode in progress under the invariant -/

theorem Inv.decRange {s : State} (h : Inv s) : DecRange s.cfg.width s.cfg.nmax s.dec :=
  ⟨h.daccWord, h.dwsWords, h.dnwLength, (overNmax_eq_false _ _).2 h.dwsNmax⟩

theorem Inv.decBetween {s : State} (h : Inv s) (hp : s.phase = .decoding) : DecBetween s.cfg.width s.dec :=
  ⟨h.doffRange hp, h.daccBelow hp⟩

theorem length_le_wordsAtEnd (ws : List Nat) (acc : Nat) : ws.length ≤ (wordsAtEnd ws acc).length := by
  rw [wordsAtEnd_length]
  exact Nat.le_add_right _ _

theorem overNmax_of_le {m n : Nat} (h : overNmax nmax n = false) (hmn : m ≤ n) : overNmax nmax m = false := by
  by_contra hm
  rw [overNmax_mono (Bool.of_not_eq_false hm) hmn] at h
  exact Bool.noConfusion h

theorem takeTerm_of_terminate {s : State} {p : Payload} {r' : DecRegs}
    (h : byteStep s.cfg.width s.cfg.nmax p (nextIndex s.dec) = some r) (ht : terminate s.cfg.nmax r = some r') :
    takeTerm p s = .next (finishDecode s r') := by
  simp only [takeTerm, h, ht]

/-- Registers in range have taken in the number they hold. -/
theorem taken_of_range (hr : DecRange w nmax r) (hb : DecBetween w r) :
    Taken w nmax r (w.bits * r.dws.length + r.doff.toNat)
      (wordsValue w (wordNumbers r) + r.dacc.toNat * 2 ^ (w.bits * r.dws.length)) :=
  ⟨hr, hb, rfl, rfl⟩

/-- From registers in range a terminator ends the decode with the words `ws` and delivers them, when the build holds
them. -/
theorem takeTerm_of_fits {s : State} {p : Payload} {ws : List Nat} (hr : DecRange s.cfg.width s.cfg.nmax s.dec)
    (hb : DecBetween s.cfg.width s.dec)
    (hend : ws = wordsAtEnd (wordsAfter s.cfg.width (wordNumbers s.dec) s.dec.dacc.toNat s.dec.doff.toNat p.toNat)
      (accAfter s.cfg.width s.dec.dacc.toNat s.dec.doff.toNat p.toNat))
    (hfits : overNmax s.cfg.nmax ws.length = false) :
    ∃ r, takeTerm p s = .next (finishDecode s r) ∧ r.di = s.dec.di + 1 ∧ r.dnw = ws.length ∧
      Delivers (finishDecode s r) ws := by
  have hbefore := overNmax_of_le hfits (hend ▸ length_le_wordsAtEnd _ _)
  obtain ⟨r, hs⟩ := byteStep_of_fits hb.nextIndex.doff hbefore
  obtain ⟨hacc, -, hws, hdi, -⟩ := byteStep_numbers hb.nextIndex.doff hs
  obtain ⟨hr', hb'⟩ := byteStep_range hr.nextIndex hb.nextIndex hs
  simp only [nextIndex_dacc, nextIndex_doff, wordNumbers_nextIndex] at hacc hws
  rw [← hacc, ← hws] at hend
  have htaken := taken_of_range hr' hb'
  rcases htaken.terminate with ⟨r', ht, hended, hdi'⟩ | ⟨-, hover⟩
  · have hwords : wordNumbers r' = ws := (terminate_numbers ht).1.trans hend.symm
    refine ⟨r', takeTerm_of_terminate hs ht, hdi'.trans hdi, ?_, hwords ▸ hended.delivers⟩
    rw [hended.range.dnw, ← wordNumbers_length, hwords]
  · rw [htaken.wordsOfStream_eq, ← wordNumbers_length, ← wordsAtEnd_length, ← hend, hfits] at hover
    exact Bool.noConfusion hover

end

/-- Settles O19: the seed takes in the masked pre-value, whose digits in words are the words spilled, and the rest
above the last word boundary. -/
theorem seedMasksAndSpills : Obligations.SeedMasksAndSpills := by
  unfold Obligations.SeedMasksAndSpills
  intro s pv pb hpb hfits
  rcases seed_taken s.cfg.width s.cfg.nmax pv s.dec hpb with ⟨r, hs, htaken, hdi⟩ | ⟨-, hover⟩
  · obtain ⟨hlen, hacc⟩ := htaken.boundary
    exact ⟨_, beginDecode_of_seed hs, rfl, hdi, hlen.symm, htaken.range.dnw,
      fun j hj => htaken.word_toNat (hlen ▸ hj), htaken.doff_toNat, hacc.symm⟩
  · rw [(overNmax_eq_false _ _).2 hfits] at hover
    exact Bool.noConfusion hover

/-- Settles O20: the per-byte step closes out a word only at the boundary, and the build holds it. -/
theorem contAccumulatesItsPayload : Obligations.ContAccumulatesItsPayload := by
  unfold Obligations.ContAccumulatesItsPayload
  intro s p hp howned _ hoff hfits
  obtain ⟨r, hs⟩ := byteStep_of_fits (r := nextIndex s.dec) hoff ((overNmax_eq_false _ _).2 hfits)
  obtain ⟨hacc, hdoff, hws, hdi, hdpv, hdrem, hdnw⟩ := byteStep_numbers (r := nextIndex s.dec) hoff hs
  refine ⟨{ s with dec := r }, ?_, hp, hdi, hacc, hdoff, hws, hdpv, hdrem, fun hlen => ?_⟩
  · rw [exec_cont, execCont_eq hp howned, takeCont_of_byteStep hs]
  · rcases hdnw with hnew | ⟨hsame, hold⟩
    · exact hnew
    · exact hold.trans (hlen.trans (congrArg List.length hsame.symm))

/-- Settles O21: under the invariant the terminator ends the decode with the words after its payload, and the end of a
decode delivers the words it ended with. -/
theorem termDeliversTheWords : Obligations.TermDeliversTheWords := by
  unfold Obligations.TermDeliversTheWords
  intro s p ws hinv hp howned _ hend hfits
  obtain ⟨r, he, hdi, hdnw, hdelivers⟩ :=
    takeTerm_of_fits hinv.decRange (hinv.decBetween hp) hend ((overNmax_eq_false _ _).2 hfits)
  refine ⟨finishDecode s r, ?_, finishDecode_phase s r, finishDecode_ok s r, (finishDecode_count s r).trans hdi, ?_,
    hdelivers⟩
  · rw [exec_term, execTerm_eq hp howned, he]
  · rw [finishDecode_dec, hdnw]

/-! ## A zero byte at the first position -/

section
variable {s : State} {pv n k : Nat}

theorem HasEnded.kind_eq_u64_iff {r : DecRegs} (h : HasEnded s pv n k r) :
    (finishDecode s r).res.kind = .u64 ↔
      s.cfg.width.bits * wordsOfStream s.cfg.width (n + 7 * (k + 1)) (streamValue s pv n (k + 1)) ≤ 64 := by
  rw [finishDecode_kind, kindOfWords_eq_u64_iff, h.1.range.dnw, h.1.length]

theorem resultValue_of_kind_u64 {t : State} (h : t.res.kind = .u64) : resultValue t = t.res.res64.toNat := by
  rw [resultValue, h]

theorem terminatorAt_zero (hlen : 0 < s.ports.len) (hzero : readInput s 0 = 0) : TerminatorAt s 0 :=
  ⟨hlen, by rw [hzero]; decide, nofun⟩

theorem streamValue_one_of_zero (hzero : readInput s 0 = 0) : streamValue s pv n 1 = pv % 2 ^ n := by
  rw [streamValue_succ, streamValue_zero, payload_toNat, hzero]
  simp

/-- A number of at most 64 bits still fits in 64 bits of words after one more group of zeros. -/
theorem bits_mul_wordsOfStream_le (w : Width) {v : Nat} (hn : n ≤ 64) (hv : v < 2 ^ n) :
    w.bits * wordsOfStream w (n + 7) v ≤ 64 := by
  have hlen := (bitLength_le_iff v n).2 hv
  rw [wordsOfStream_eq_of_bitLength]
  split
  · next h => cases w <;> simp only [Width.bits] at h ⊢ <;> omega
  · next h => cases w <;> simp only [Width.bits] at h ⊢ <;> omega

end

/-- Settles O29: the byte is a terminator that adds nothing to the seed, and a seed of at most 64 bits is a 64-bit
integer. -/
theorem firstPositionZeroDeliversTheSeed : Obligations.FirstPositionZeroDeliversTheSeed := by
  unfold Obligations.FirstPositionZeroDeliversTheSeed
  intro i s pv n h hlen hzero hfits
  obtain ⟨-, -, -, -, hn, -⟩ := exec_eq_runDecode h
  have hvalue : streamValue s pv n 1 = pv % 2 ^ n := streamValue_one_of_zero hzero
  rcases exec_answers h (terminatorAt_zero hlen hzero) with ⟨r, he, hended⟩ | ⟨-, hlong⟩
  · have hkind : (finishDecode s r).res.kind = .u64 := by
      rw [hended.kind_eq_u64_iff, hvalue]
      exact bits_mul_wordsOfStream_le _ hn (Nat.mod_lt _ (Nat.pow_pos (by norm_num)))
    refine ⟨finishDecode s r, he, finishDecode_ok s r, (finishDecode_count s r).trans hended.2, hkind, ?_⟩
    rw [← resultValue_of_kind_u64 hkind, resultValue_finishDecode hended.1, hvalue]
  · rw [TooLong, hvalue, (overNmax_eq_false _ _).2 hfits] at hlong
    exact Bool.noConfusion hlong

end Sys2Proof.Machine

/-! A decode of an input without a terminator, and which of its two ends a decode comes to (`60_exceptions.md` R172,
`43_decoder.md` R151). -/
namespace Sys2Proof.Machine

section
variable {s : State} {pv n : Nat}

/-- All a decode of an input without a terminator can answer: Unterminated, or the refusal for want of a word. -/
def AnswersUnterminated (s : State) (n : Nat) (o : Host.Outcome State Fault Refusal) : Prop :=
  (∃ r, o = .next (raiseUnterminated { s with dec := r })) ∨
    (o = .refused .nmaxExceeded ∧ overNmax s.cfg.nmax ((n + 7 * s.ports.len) / s.cfg.width.bits) = true)

/-- The phase and the registers a decode goes on from have no part in it: the error overwrites the phase, and any
registers may stand at its end. -/
theorem AnswersUnterminated.of_withPhase {ph : Phase} {q : DecRegs} {o : Host.Outcome State Fault Refusal}
    (h : AnswersUnterminated { s with phase := ph, dec := q } n o) : AnswersUnterminated s n o := h

/-- By induction on the bytes the loop may still read: each is taken in, and the loop ends with the error. -/
theorem decodeLoop_answersUnterminated (fuel : Nat) (h : HasRead s pv n s.dec) (hno : NoTerminator s) :
    AnswersUnterminated s n (decodeLoop fuel s) := by
  induction fuel generalizing s with
  | zero => exact .inl ⟨s.dec, rfl⟩
  | succ fuel ih =>
    rw [decodeLoop]
    by_cases hlt : s.dec.di < s.ports.len
    · rw [if_pos hlt, contFlag_eq, if_pos (decide_eq_true (hno _ hlt)), takeCont]
      rcases h.byteStep with ⟨r, hs, hread, -⟩ | ⟨hs, hover⟩
      · simp only [hs]
        exact (ih (s := { s with dec := r }) hread hno).of_withPhase (ph := s.phase)
      · exact .inr ⟨by simp only [hs], overNmax_mono hover (Nat.div_le_div_right (by omega))⟩
    · rw [if_neg hlt]
      exact .inl ⟨s.dec, rfl⟩

theorem runDecode_answersUnterminated {pre : BitVec 64} {pb : BitVec 7} (hpb : pb.toNat ≤ 64) (hno : NoTerminator s) :
    AnswersUnterminated s pb.toNat (runDecode pre pb s) := by
  unfold runDecode beginDecode
  rcases seed_taken s.cfg.width s.cfg.nmax pre s.dec hpb with ⟨r, hs, htaken, hdi⟩ | ⟨hs, hover⟩
  · have hread : HasRead s pre.toNat pb.toNat r := by
      rw [HasRead, hdi, streamValue_zero]
      exact htaken
    simp only [hs]
    exact (decodeLoop_answersUnterminated (s := { s with phase := .decoding, dec := r }) _ hread hno).of_withPhase
  · exact .inr ⟨by simp only [hs], overNmax_mono hover (Nat.div_le_div_right (by omega))⟩

/-- All a decode of an input without a terminator can answer, for both operations and every seed. -/
theorem exec_answersUnterminated {i : Instr} (h : DecodeRequest i s pv n) (hno : NoTerminator s) :
    AnswersUnterminated s n (exec i s) := by
  obtain ⟨pre, pb, rfl, rfl, hpb, he⟩ := exec_eq_runDecode h
  rw [he]
  exact runDecode_answersUnterminated hpb hno

/-- An input with a byte whose bit 7 is clear has a first one. -/
theorem exists_terminatorAt (h : ¬ NoTerminator s) : ∃ k, TerminatorAt s k := by
  have hex : ∃ j, j < s.ports.len ∧ (readInput s j).toNat < 128 := by simpa [NoTerminator] using h
  obtain ⟨hlen, hterm⟩ := Nat.find_spec hex
  exact ⟨Nat.find hex, hlen, hterm,
    fun j hj => Nat.not_lt.1 fun hclear => Nat.find_min hex hj ⟨hj.trans hlen, hclear⟩⟩

theorem raiseUnterminated_sameInputs (s : State) : SameInputs s (raiseUnterminated s) :=
  ⟨rfl, rfl, rfl, rfl, rfl, rfl, rfl⟩

/-- The flag `OK` of a decode that is not refused tells the two kinds of input apart. -/
theorem exec_decode_ok_eq_false_iff {i : Instr} {t : State} (h : DecodeRequest i s pv n) (he : exec i s = .next t) :
    t.res.ok = false ↔ NoTerminator s := by
  by_cases hno : NoTerminator s
  · rcases exec_answersUnterminated h hno with ⟨r, hraised⟩ | ⟨hrefused, -⟩
    · obtain rfl := Host.Outcome.next.inj (he.symm.trans hraised)
      exact iff_of_true rfl hno
    · exact nomatch he.symm.trans hrefused
  · obtain ⟨k, hk⟩ := exists_terminatorAt hno
    rcases exec_answers h hk with ⟨r, hended, -⟩ | ⟨hrefused, -⟩
    · obtain rfl := Host.Outcome.next.inj (he.symm.trans hended)
      exact iff_of_false (by simp [finishDecode_ok]) hno
    · exact nomatch he.symm.trans hrefused

/-- With the words accumulated in the build, a decode of an input without a terminator raises the error. -/
theorem exec_eq_raiseUnterminated {i : Instr} (h : DecodeRequest i s pv n) (hno : NoTerminator s)
    (hfits : FitsNmax s ((n + 7 * s.ports.len) / s.cfg.width.bits)) :
    ∃ r, exec i s = .next (raiseUnterminated { s with dec := r }) := by
  rcases exec_answersUnterminated h hno with hraised | ⟨-, hover⟩
  · exact hraised
  · rw [(overNmax_eq_false _ _).2 hfits] at hover
    exact Bool.noConfusion hover

end

/-- Settles O27: the loop takes in every byte whose bit 7 is set and ends without a result only when no other is left;
the error it raises then leaves the caller's data as it was. -/
theorem decodeFailsExactlyWhenUnterminated : Obligations.DecodeFailsExactlyWhenUnterminated := by
  unfold Obligations.DecodeFailsExactlyWhenUnterminated
  intro i s pv n h
  refine ⟨fun t he => exec_decode_ok_eq_false_iff h he, fun hno hfits => ?_⟩
  obtain ⟨r, he⟩ := exec_eq_raiseUnterminated h hno hfits
  exact ⟨_, he, rfl, rfl, raiseUnterminated_phase _, raiseUnterminated_out _, raiseUnterminated_sameInputs _⟩

end Sys2Proof.Machine

/-! Decoding and encoding, one instruction at a time (`30_encoding.md` R70, R71, R78, R79). -/
namespace Sys2Proof.Machine

theorem decodeWire_encodeByte_cont (p : Payload) : decodeWire (encodeByte (.cont p)) = .cont p := by
  revert p
  decide

theorem decodeWire_encodeByte_term (p : Payload) : decodeWire (encodeByte (.term p)) = .term p := by
  revert p
  decide

theorem encodeByte_decodeWire (b : Byte) : encodeByte (decodeWire b) = b := by
  revert b
  decide

theorem encodeByte_decodeOp (op : BitVec 3) : encodeByte (decodeOp op) = op.setWidth 8 := by
  revert op
  decide

theorem format_decodeOp (op : BitVec 3) : (decodeOp op).format = .cmd := by
  revert op
  decide

theorem format_decodeWire (b : Byte) : (decodeWire b).format = .wire := by
  rw [decodeWire_eq]
  cases contFlag b <;> rfl

/-- A byte that is an `OP` code has no bit above bit 2 (`30_encoding.md` R78). -/
theorem setWidth_op_setWidth_byte {b : Byte} (h : b.toNat < 8) : (b.setWidth 3).setWidth 8 = b := by
  refine BitVec.eq_of_toNat_eq ?_
  rw [BitVec.toNat_setWidth, BitVec.toNat_setWidth, Nat.mod_eq_of_lt h, Nat.mod_eq_of_lt b.isLt]

theorem decode_encode (i : Instr) (rest : List Byte) : decode i.format (encode i ++ rest) = .ok (i, rest) := by
  cases i with
  | cont p => exact congrArg (fun i => Except.ok (i, rest)) (decodeWire_encodeByte_cont p)
  | term p => exact congrArg (fun i => Except.ok (i, rest)) (decodeWire_encodeByte_term p)
  | sizeU64 | sizeBig | encU64 | encBig | dec | decC | reserved6 | reserved7 => rfl

/-- What decodes is an instruction of the format read, and the bytes begin with its encoding. -/
theorem encode_of_decode {f : Format} {bytes rest : List Byte} {i : Instr} (h : decode f bytes = .ok (i, rest)) :
    i.format = f ∧ bytes = encode i ++ rest := by
  cases bytes with
  | nil => cases f <;> exact nomatch h
  | cons b bytes =>
    cases f with
    | cmd =>
      rw [decode] at h
      split at h
      · next hb =>
          cases h
          refine ⟨format_decodeOp _, ?_⟩
          rw [encode, encodeByte_decodeOp, setWidth_op_setWidth_byte hb]
          rfl
      · exact nomatch h
    | wire =>
      cases h
      refine ⟨format_decodeWire b, ?_⟩
      rw [encode, encodeByte_decodeWire]
      rfl

/-- Settles O1, by running the decoder on the twelve words. -/
theorem operationCodesSelectTheirOperations : Obligations.OperationCodesSelectTheirOperations := by
  unfold Obligations.OperationCodesSelectTheirOperations
  decide

/-- Settles O3: an instruction is one byte, which each of the two decoders turns back. -/
theorem decodingUndoesEncodingAndBack : Obligations.DecodingUndoesEncodingAndBack := by
  unfold Obligations.DecodingUndoesEncodingAndBack
  exact ⟨decode_encode, fun b => congrArg (fun c => [c]) (encodeByte_decodeWire b),
    fun op => congrArg (fun c => [c]) (encodeByte_decodeOp op), fun _ _ _ _ => encode_of_decode⟩

end Sys2Proof.Machine

/-! What an instruction can do at all, once for every instruction; and what it therefore leaves unchanged
(`10_state.md` R21 to R24, `20_memory.md` R53, `60_exceptions.md` R174). -/
namespace Sys2Proof.Machine

section
variable {s t : State} {i : Instr} {r : DecRegs}

/-! ## The end of a decode -/

/-- A decode ended in `t` with the registers `r`: in error, or with its words delivered. -/
def DecodeEnd (s : State) (r : DecRegs) (t : State) : Prop :=
  t = raiseUnterminated { s with dec := r } ∨ t = finishDecode s r

@[simp] theorem finishDecode_out (s : State) (r : DecRegs) : (finishDecode s r).out = s.out := by
  rcases finishDecode_cases s r with h | h <;> rw [h] <;> rfl

@[simp] theorem finishDecode_size (s : State) (r : DecRegs) : (finishDecode s r).size = s.size := by
  rcases finishDecode_cases s r with h | h <;> rw [h] <;> rfl

@[simp] theorem finishDecode_enc (s : State) (r : DecRegs) : (finishDecode s r).enc = s.enc := by
  rcases finishDecode_cases s r with h | h <;> rw [h] <;> rfl

theorem withDec_sameInputs (s : State) (r : DecRegs) : SameInputs s { s with dec := r } :=
  ⟨rfl, rfl, rfl, rfl, rfl, rfl, rfl⟩

theorem doneSize_sameInputs (s : State) (q : SizeRegs) (count : Nat) : SameInputs s (doneSize s q count) :=
  ⟨rfl, rfl, rfl, rfl, rfl, rfl, rfl⟩

theorem applyReset_sameInputs (s : State) : SameInputs s (applyReset s) := ⟨rfl, rfl, rfl, rfl, rfl, rfl, rfl⟩

theorem finishDecode_sameInputs (s : State) (r : DecRegs) : SameInputs s (finishDecode s r) := by
  rcases finishDecode_cases s r with h | h <;> rw [h] <;> exact ⟨rfl, rfl, rfl, rfl, rfl, rfl, rfl⟩

theorem DecodeEnd.frame (h : DecodeEnd s r t) :
    SameInputs s t ∧ t.out = s.out ∧ t.size = s.size ∧ t.enc = s.enc := by
  rcases h with rfl | rfl
  · exact ⟨raiseUnterminated_sameInputs _, rfl, rfl, rfl⟩
  · exact ⟨finishDecode_sameInputs s r, finishDecode_out s r, finishDecode_size s r, finishDecode_enc s r⟩

theorem DecodeEnd.phase (h : DecodeEnd s r t) : t.phase = .idle := by
  rcases h with rfl | rfl
  · rfl
  · exact finishDecode_phase s r

theorem DecodeEnd.dec (h : DecodeEnd s r t) : t.dec = r := by
  rcases h with rfl | rfl
  · rfl
  · exact finishDecode_dec s r

theorem runDecode_decodeEnd {pv : BitVec 64} {pb : BitVec 7} (hpb : pb.toNat ≤ 64) (h : runDecode pv pb s = .next t) :
    ∃ r, DecodeEnd s r t ∧ DecRange s.cfg.width s.cfg.nmax r := by
  obtain ⟨r, hr, hend⟩ := runDecode_next hpb h
  exact ⟨r, hend.imp_right fun ht => ht.trans (finishDecode_withPhase s .decoding r r), hr⟩

/-! ## Everything an instruction can do -/

/-- What an instruction did that answered a next state, by the component it belongs to; registers that were in range
before it are in range after it. -/
inductive Effect (s : State) : Instr → State → Prop
  | size {i : Instr} {q : SizeRegs} {count : Nat} (hi : i = .sizeU64 ∨ i = .sizeBig)
      (hq : s.size.sn ≤ 10 → q.sn ≤ 10) : Effect s i (doneSize s q count)
  | encode {i : Instr} {e : Emission} (hi : i = .encU64 ∨ i = .encBig) (happ : Appends s.ports.cap 0 s.out e)
      (he : EncRange s.cfg.width s.enc → EncRange s.cfg.width (endRegs e)) : Effect s i (finishEncode s e)
  | decode {i : Instr} {r : DecRegs} {t : State} (hi : i = .dec ∨ i = .decC ∨ ∃ p, i = .term p)
      (hend : DecodeEnd s r t) (hr : Inv s → DecRange s.cfg.width s.cfg.nmax r) : Effect s i t
  | cont {p : Payload} {r : DecRegs} (hp : s.phase = .decoding)
      (hs : byteStep s.cfg.width s.cfg.nmax p (nextIndex s.dec) = some r) : Effect s (.cont p) { s with dec := r }

theorem encodeU64Emission_range (h : EncRange s.cfg.width s.enc) :
    EncRange s.cfg.width (endRegs (encodeU64Emission s)) :=
  endsIn_endRegs (encodeU64Loop_range s.cfg.width s.ports.cap 10 (startEncodeU64 s.ports.val64 s.enc) s.out h)

theorem exec_effect (h : exec i s = .next t) : Effect s i t := by
  cases i with
  | sizeU64 =>
    obtain rfl := execSizeU64_next h
    exact .size (.inl rfl) fun _ => (sizeLoop_sn_le 10 _).trans (Nat.zero_add 10).le
  | sizeBig =>
    obtain ⟨-, rfl⟩ := execSizeBig_next h
    exact .size (.inr rfl) id
  | encU64 =>
    obtain ⟨-, rfl⟩ := execEncU64_next h
    exact .encode (.inl rfl) (encodeU64Emission_appends s) encodeU64Emission_range
  | encBig =>
    obtain ⟨-, rfl⟩ := execEncBig_next h
    exact .encode (.inr rfl) (encodeBigEmission_appends s) fun _ => endsIn_endRegs (encodeBigEmission_range s)
  | dec =>
    obtain ⟨r, hend, hr⟩ := runDecode_decodeEnd (Nat.zero_le _) (execDec_next h).2
    exact .decode (.inl rfl) hend fun _ => hr
  | decC =>
    obtain ⟨⟨hpb, -⟩, hrun⟩ := execDecC_next h
    obtain ⟨r, hend, hr⟩ := runDecode_decodeEnd hpb hrun
    exact .decode (.inr (.inl rfl)) hend fun _ => hr
  | reserved6 => exact nomatch h
  | reserved7 => exact nomatch h
  | cont p =>
    obtain ⟨⟨hp, -⟩, htake⟩ := execCont_next h
    obtain ⟨r, hs, rfl⟩ := takeCont_next htake
    exact .cont hp hs
  | term p =>
    obtain ⟨⟨hp, -⟩, htake⟩ := execTerm_next h
    obtain ⟨r, r', hs, ht, rfl⟩ := takeTerm_next htake
    refine .decode (.inr (.inr ⟨p, rfl⟩)) (.inr rfl) fun hinv => ?_
    exact terminate_range (byteStep_range hinv.decRange.nextIndex (hinv.decBetween hp).nextIndex hs).1 ht

/-- Everything a step can do: what its instruction does, or the end of a decode whose input is used up. -/
theorem step_effect (h : step s = .next t) :
    (∃ i, fetch s = some i ∧ Effect s i t) ∨ (fetch s = none ∧ DecodeEnd s s.dec t) := by
  unfold step at h
  split at h
  · next i hf => exact .inl ⟨i, hf, exec_effect h⟩
  · next hf => exact .inr ⟨hf, .inl (exhaustInput_next h).2⟩

/-! ## What stays as it was -/

theorem Effect.sameInputs (h : Effect s i t) : SameInputs s t := by
  cases h with
  | size => exact doneSize_sameInputs s _ _
  | encode => exact (finishEncode_frame s _).1
  | decode _ hend => exact hend.frame.1
  | cont => exact withDec_sameInputs s _

theorem Effect.out_eq (h : Effect s i t) (hu : i ≠ .encU64) (hb : i ≠ .encBig) : t.out = s.out := by
  cases h with
  | size => rfl
  | encode hi => exact (hi.elim hu hb).elim
  | decode _ hend => exact hend.frame.2.1
  | cont => rfl

theorem Effect.out_beyond (h : Effect s i t) {a : Nat} (ha : s.ports.cap ≤ a) :
    readCell t.out a = readCell s.out a := by
  cases h with
  | size => rfl
  | encode _ happ => exact (finishEncode_out s _ happ).1 a ha
  | decode _ hend => rw [hend.frame.2.1]
  | cont => rfl

theorem Effect.epos_le (h : Effect s i t) (hi : i = .encU64 ∨ i = .encBig) : t.enc.epos ≤ s.ports.cap := by
  cases h with
  | size hi' => rcases hi with rfl | rfl <;> simp at hi'
  | @encode _ e _ happ =>
    obtain ⟨-, -, -, -, henc, -⟩ := finishEncode_frame s e
    rw [henc]
    exact endsIn_endRegs (P := fun r => r.epos ≤ s.ports.cap)
      (endsIn_mono happ fun _ _ hgrown => hgrown.bounded (Nat.zero_le _))
  | decode hi' => rcases hi with rfl | rfl <;> simp at hi'
  | cont => simp at hi

theorem Effect.phase_eq_idle (h : Effect s i t) (hi : i.format = .cmd) : t.phase = .idle := by
  cases h with
  | size => rfl
  | encode => exact (finishEncode_frame s _).2.1
  | decode _ hend => exact hend.phase
  | cont => exact nomatch hi

end

/-- Settles O15: the bytes outside the emission are as they were, and the end of an encode writes its own registers and
ports. -/
theorem encodeChangesOnlyItsBufferAndPorts : Obligations.EncodeChangesOnlyItsBufferAndPorts := by
  unfold Obligations.EncodeChangesOnlyItsBufferAndPorts
  intro i s t hi h
  cases exec_effect h with
  | size hi' => rcases hi with rfl | rfl <;> simp at hi'
  | @encode _ e _ happ =>
    obtain ⟨hin, -, hsize, hdec, -⟩ := finishEncode_frame s e
    obtain ⟨hcap, hcount, -⟩ := finishEncode_out s _ happ
    exact ⟨hin, hsize, hdec, hcap, hcount⟩
  | decode hi' => rcases hi with rfl | rfl <;> simp at hi'
  | cont => simp at hi

/-- Settles O34: a decode ends by writing its registers and ports, and CONT writes the registers alone. -/
theorem decodeChangesOnlyItsRegistersAndPorts : Obligations.DecodeChangesOnlyItsRegistersAndPorts := by
  unfold Obligations.DecodeChangesOnlyItsRegistersAndPorts
  refine ⟨fun i s t hi h => ?_, fun p s t h => ?_⟩
  · cases exec_effect h with
    | size hi' => rcases hi' with rfl | rfl <;> simp at hi
    | encode hi' => rcases hi' with rfl | rfl <;> simp at hi
    | decode _ hend => exact hend.frame
    | cont => exact ⟨withDec_sameInputs s _, rfl, rfl, rfl⟩
  · obtain ⟨r, -, rfl⟩ := takeCont_next (execCont_next h).2
    rfl

/-- Settles O46: an instruction leaves the caller's inputs as they are, and so does the end of a used-up input. -/
theorem stepLeavesTheCallersInputs : Obligations.StepLeavesTheCallersInputs := by
  unfold Obligations.StepLeavesTheCallersInputs
  intro s t h
  rcases step_effect h with ⟨i, hf, heff⟩ | ⟨-, hend⟩
  · rw [hf]
    exact ⟨heff.sameInputs, fun hu hb => heff.out_eq (mt (congrArg some) hu) (mt (congrArg some) hb)⟩
  · exact ⟨hend.frame.1, fun _ _ => hend.frame.2.1⟩

/-- Settles O47: an emission that starts within the capacity ends within it, and nothing else writes the buffer. -/
theorem stepNeverWritesPastTheCapacity : Obligations.StepNeverWritesPastTheCapacity := by
  unfold Obligations.StepNeverWritesPastTheCapacity
  intro s t h
  rcases step_effect h with ⟨i, hf, heff⟩ | ⟨hf, hend⟩
  · rw [hf]
    exact ⟨fun a ha => heff.out_beyond ha, fun hi => heff.epos_le (hi.imp Option.some.inj Option.some.inj)⟩
  · rw [hf]
    exact ⟨fun a _ => by rw [hend.frame.2.1], fun hi => hi.elim nofun nofun⟩

/-- Settles O50: of everything an instruction can do, only CONT, a wire byte, ends no operation. -/
theorem operationsEndIdle : Obligations.OperationsEndIdle := by
  unfold Obligations.OperationsEndIdle
  intro i s t hi h
  exact (exec_effect h).phase_eq_idle hi

/-- Settles O49: reset changes nothing that an operation's request holds. -/
theorem operationAfterResetBehavesAsAnyOther : Obligations.OperationAfterResetBehavesAsAnyOther := by
  unfold Obligations.OperationAfterResetBehavesAsAnyOther
  intro i s
  refine ⟨rfl, applyReset_sameInputs s, rfl, fun hi => ?_⟩
  exact operationsShareNoState i (applyReset s) s hi ⟨rfl, rfl, rfl, rfl, rfl, rfl, rfl, rfl⟩

/-! ## The invariant -/

section
variable {s t : State} {i : Instr} {r : DecRegs}

/-- The end of an operation keeps the invariant when the registers, ports and buffer it may write are in range; what is
said of a decode in progress is then said of none. -/
theorem Inv.of_idle (h : Inv s) (hin : SameInputs s t) (hidle : t.phase = .idle) (hout : Memory.wf t.out = true)
    (hrw : Memory.wf t.res.rw = true) (hwords : ∀ i, (readCell t.res.rw i).toNat < 2 ^ s.cfg.width.bits)
    (hsn : t.size.sn ≤ 10) (henc : EncRange s.cfg.width t.enc) (hdec : DecRange s.cfg.width s.cfg.nmax t.dec) :
    Inv t := by
  obtain ⟨hcfg, -, hvw, hinp, -⟩ := hin
  have hbusy : t.phase ≠ .decoding := by rw [hidle]; exact nofun
  rw [hcfg] at hwords henc hdec
  exact
    { vwCanonical := hvw ▸ h.vwCanonical
      outCanonical := hout
      inpCanonical := hinp ▸ h.inpCanonical
      rwCanonical := hrw
      rwWords := hwords
      snRange := hsn
      egRange := henc.2
      eaccWord := henc.1
      daccWord := hdec.dacc
      dwsWords := hdec.dws
      dnwLength := hdec.dnw
      dwsNmax := (overNmax_eq_false _ _).1 hdec.nmax
      doffRange := fun hp => absurd hp hbusy
      daccBelow := fun hp => absurd hp hbusy
      diRange := fun hp => absurd hp hbusy
      lenOwned := fun hp => absurd hp hbusy }

theorem Inv.encRange (h : Inv s) : EncRange s.cfg.width s.enc := ⟨h.eaccWord, h.egRange⟩

theorem finishDecode_rw (hr : DecRange s.cfg.width s.cfg.nmax r) :
    Memory.wf (finishDecode s r).res.rw = true ∧
      ∀ i, (readCell (finishDecode s r).res.rw i).toNat < 2 ^ s.cfg.width.bits := by
  rcases finishDecode_cases s r with h | h
  · rw [h]
    exact ⟨freeResults_rw_wf _ _, freeResults_rw_lt _ _⟩
  · rw [h]
    exact ⟨writeResultWords_wf _, writeResultWords_lt _ _ hr.dws⟩

theorem DecodeEnd.rw_range (h : DecodeEnd s r t) (hr : DecRange s.cfg.width s.cfg.nmax r) :
    Memory.wf t.res.rw = true ∧ ∀ i, (readCell t.res.rw i).toNat < 2 ^ s.cfg.width.bits := by
  rcases h with rfl | rfl
  · exact ⟨freeResults_rw_wf _ _, freeResults_rw_lt _ _⟩
  · exact finishDecode_rw hr

theorem DecodeEnd.inv (h : DecodeEnd s r t) (hinv : Inv s) (hr : DecRange s.cfg.width s.cfg.nmax r) : Inv t := by
  obtain ⟨hin, hout, hsize, henc⟩ := h.frame
  obtain ⟨hwf, hwords⟩ := h.rw_range hr
  exact hinv.of_idle hin h.phase (hout ▸ hinv.outCanonical) hwf hwords (hsize ▸ hinv.snRange)
    (henc ▸ hinv.encRange) (h.dec ▸ hr)

theorem finishEncode_inv {e : Emission} (hinv : Inv s) (happ : Appends s.ports.cap 0 s.out e)
    (he : EncRange s.cfg.width (endRegs e)) : Inv (finishEncode s e) := by
  obtain ⟨hin, hidle, hsize, hdec, henc, ok, count, hres⟩ := finishEncode_frame s e
  obtain ⟨-, -, hwf⟩ := finishEncode_out s e happ
  refine hinv.of_idle hin hidle (hwf hinv.outCanonical) ?_ ?_ (hsize ▸ hinv.snRange) (henc ▸ he)
    (hdec ▸ hinv.decRange)
  · rw [hres]
    exact freeResults_rw_wf _ _
  · rw [hres]
    exact freeResults_rw_lt _ _

theorem doneSize_inv {q : SizeRegs} {count : Nat} (hinv : Inv s) (hq : q.sn ≤ 10) : Inv (doneSize s q count) :=
  hinv.of_idle (doneSize_sameInputs s q count) rfl hinv.outCanonical (freeResults_rw_wf _ _)
    (freeResults_rw_lt _ _) hq hinv.encRange hinv.decRange

/-- A byte below `LEN` keeps the invariant of the decode in progress it goes on with. -/
theorem withDec_inv {p : Payload} (hinv : Inv s) (hp : s.phase = .decoding) (hdi : s.dec.di < s.ports.len)
    (hs : byteStep s.cfg.width s.cfg.nmax p (nextIndex s.dec) = some r) : Inv { s with dec := r } := by
  have hbetween := (hinv.decBetween hp).nextIndex
  obtain ⟨-, -, -, hdi', -⟩ := byteStep_numbers hbetween.doff hs
  obtain ⟨hr, hb⟩ := byteStep_range hinv.decRange.nextIndex hbetween hs
  exact
    { hinv with
      daccWord := hr.dacc
      dwsWords := hr.dws
      dnwLength := hr.dnw
      dwsNmax := (overNmax_eq_false _ _).1 hr.nmax
      doffRange := fun _ => hb.doff
      daccBelow := fun _ => hb.dacc
      diRange := fun _ => hdi' ▸ hdi }

theorem Effect.inv (h : Effect s i t) (hinv : Inv s) (hdi : s.phase = .decoding → s.dec.di < s.ports.len) :
    Inv t := by
  cases h with
  | size _ hq => exact doneSize_inv hinv (hq hinv.snRange)
  | encode _ happ he => exact finishEncode_inv hinv happ (he hinv.encRange)
  | decode _ hend hr => exact hend.inv hinv (hr hinv)
  | cont hp hs => exact withDec_inv hinv hp (hdi hp) hs

/-- A step of a decode in progress fetches an instruction only where an input byte is left. -/
theorem di_lt_len_of_fetch (hf : fetch s = some i) (hp : s.phase = .decoding) : s.dec.di < s.ports.len := by
  by_contra hge
  rw [fetch_exhausted hp (Nat.not_lt.1 hge)] at hf
  exact nomatch hf

end

/-- Settles O45: every effect an instruction can have keeps the invariant, and so does the end of a used-up input. -/
theorem stepKeepsTheInvariant : Obligations.StepKeepsTheInvariant := by
  unfold Obligations.StepKeepsTheInvariant
  intro s t hinv h
  rcases step_effect h with ⟨i, hf, heff⟩ | ⟨-, hend⟩
  · exact heff.inv hinv (di_lt_len_of_fetch hf)
  · exact hend.inv hinv hinv.decRange

/-- Settles O44: the block is idle and everything the invariant speaks of is 0 or empty (log 1). -/
theorem resetMeetsTheInvariant : Obligations.ResetMeetsTheInvariant := by
  unfold Obligations.ResetMeetsTheInvariant
  exact
    { vwCanonical := rfl
      outCanonical := rfl
      inpCanonical := rfl
      rwCanonical := rfl
      rwWords := fun _ => Nat.pow_pos (by norm_num)
      snRange := Nat.zero_le _
      egRange := Nat.zero_le _
      eaccWord := Nat.pow_pos (by norm_num)
      daccWord := Nat.pow_pos (by norm_num)
      dwsWords := nofun
      dnwLength := rfl
      dwsNmax := fun _ _ => Nat.zero_le _
      doffRange := nofun
      daccBelow := nofun
      diRange := nofun
      lenOwned := nofun }

end Sys2Proof.Machine

/-! Which instruction a step runs (`10_state.md` R22, `43_decoder.md` R148), and the bit-alignment cycle of the two
tables (`40_bitgroup_tables.md` section 3). -/
namespace Sys2Proof.Machine

theorem step_of_fetch {s : State} {i : Instr} (h : fetch s = some i) : step s = exec i s := by
  rw [step, h]

theorem step_of_exhausted {s : State} (hp : s.phase = .decoding) (hd : s.ports.len ≤ s.dec.di) :
    step s = exhaustInput s := by
  rw [step, fetch_exhausted hp hd]

/-- Settles O4: the step samples `OP` as its decoder does. -/
theorem idleStepRunsTheOperationOnOp : Obligations.IdleStepRunsTheOperationOnOp := by
  unfold Obligations.IdleStepRunsTheOperationOnOp
  intro s i rest hp hd
  refine step_of_fetch ?_
  simp only [fetch, hp, hd, decodedInstr]

/-- Settles O5: while an input byte is left the step reads it as its decoder does. -/
theorem decodingStepRunsTheNextInputByte : Obligations.DecodingStepRunsTheNextInputByte := by
  unfold Obligations.DecodingStepRunsTheNextInputByte
  intro s i rest hp hlt hd
  refine step_of_fetch ?_
  simp only [fetch, hp, hd, decodedInstr, if_pos hlt]

/-- Settles O6: no input byte is left, so the step ends the decode in error. -/
theorem decodingStepWithoutInputIsUnterminated : Obligations.DecodingStepWithoutInputIsUnterminated := by
  unfold Obligations.DecodingStepWithoutInputIsUnterminated
  intro s hp howned hd
  exact ⟨raiseUnterminated s, by rw [step_of_exhausted hp hd, exhaustInput_eq hp howned], rfl, rfl, rfl, rfl,
    raiseUnterminated_sameInputs s⟩

/-- Settles O11, entry by entry. -/
theorem tableEntriesFollowTheAlignmentCycle : Obligations.TableEntriesFollowTheAlignmentCycle := by
  unfold Obligations.TableEntriesFollowTheAlignmentCycle
  intro w
  cases w with
  | w32 => decide
  | w64 => decide

/-- Settles O12, entry by entry. -/
theorem tablePropertiesHold : Obligations.TablePropertiesHold := by
  unfold Obligations.TablePropertiesHold
  intro w
  cases w with
  | w32 => decide
  | w64 => decide

end Sys2Proof.Machine

/-! What each instruction refuses, and for which reason (`60_exceptions.md` R177 to R179). -/
namespace Sys2Proof.Machine

section
variable {s : State} {r : Refusal}

theorem overNmax_eq_true_iff_not_fits {n : Nat} : overNmax s.cfg.nmax n = true ↔ ¬ FitsNmax s n := by
  rw [← Bool.not_eq_false, overNmax_eq_false]
  rfl

theorem overNmax_of_fits {n : Nat} (h : FitsNmax s n) : overNmax s.cfg.nmax n = false := (overNmax_eq_false _ _).2 h

theorem execSizeBig_of_refusal (h : refusalSizeBig s = some r) : execSizeBig s = .refused r := by
  rw [execSizeBig, h]

theorem execEncU64_of_refusal (h : refusalEncU64 s = some r) : execEncU64 s = .refused r := by
  rw [execEncU64_eq, h]

theorem execEncBig_of_refusal (h : refusalEncBig s = some r) : execEncBig s = .refused r := by
  rw [execEncBig_eq, h]

theorem execDec_of_refusal (h : refusalDec s = some r) : execDec s = .refused r := by
  rw [execDec, h]

theorem execDecC_of_refusal (h : refusalDecC s = some r) : execDecC s = .refused r := by
  rw [execDecC, h]

theorem refusalByte_decoding (hp : s.phase = .decoding) : refusalByte s = refusalDec s := by
  rw [refusalByte, hp]

theorem refusalByte_idle (hp : s.phase = .idle) : refusalByte s = some .noDecodeInProgress := by
  rw [refusalByte, hp]

theorem execCont_of_refusal {p : Payload} (h : refusalByte s = some r) : execCont p s = .refused r := by
  rw [execCont, h]

theorem execTerm_of_refusal {p : Payload} (h : refusalByte s = some r) : execTerm p s = .refused r := by
  rw [execTerm, h]

theorem exhaustInput_of_refusal (h : refusalByte s = some r) : exhaustInput s = .refused r := by
  rw [exhaustInput, h]

theorem refusalDec_of_lt (h : s.inSize < s.ports.len) : refusalDec s = some .bufferBounds := by
  simp [refusalDec, firstRefusal_cons, h]

theorem refusalDec_of_contended (h : s.ports.len ≤ s.inSize) (hc : s.contended = true) :
    refusalDec s = some .bufferShared := by
  simp [refusalDec, firstRefusal_cons, h, hc]

/-- Past the check of `PRE_BITS`, DEC.C refuses what DEC does. -/
theorem refusalDecC_eq_refusalDec (h : s.ports.preBits.toNat ≤ 64) : refusalDecC s = refusalDec s := by
  rw [refusalDecC, firstRefusal_cons, decide_eq_false (Nat.not_lt.2 h)]
  rfl

theorem refusalDecC_of_lt (h : 64 < s.ports.preBits.toNat) : refusalDecC s = some .preBitsRange := by
  rw [refusalDecC, firstRefusal_cons, decide_eq_true h]
  rfl

/-- Past the check of `NWORDS`, SIZE.BIG refuses a shared data space, then a sequence that is no Value. -/
theorem refusalSizeBig_of_fits (h : FitsNmax s s.ports.nwords) :
    refusalSizeBig s = firstRefusal [(s.contended, .bufferShared), (nonNormalValue s, .nonNormalValue)] := by
  rw [refusalSizeBig, firstRefusal_cons, overNmax_of_fits h]
  rfl

/-- Past the check of `NWORDS`, ENC.BIG refuses what ENC.U64 does, then a sequence that is no Value. -/
theorem refusalEncBig_of_fits (h : FitsNmax s s.ports.nwords) :
    refusalEncBig s = (refusalEncU64 s).or (firstRefusal [(nonNormalValue s, .nonNormalValue)]) := by
  rw [refusalEncBig, refusalEncU64, firstRefusal_cons, overNmax_of_fits h]
  cases hc : decide (s.outSize < s.ports.cap) <;> cases hs : s.contended <;> rfl

theorem refusalEncU64_of_lt (h : s.outSize < s.ports.cap) : refusalEncU64 s = some .bufferBounds := by
  simp [refusalEncU64, firstRefusal_cons, h]

theorem refusalEncU64_of_contended (h : s.ports.cap ≤ s.outSize) (hc : s.contended = true) :
    refusalEncU64 s = some .bufferShared := by
  simp [refusalEncU64, firstRefusal_cons, h, hc]

/-- A step of a decode in progress whose buffers are not its own is refused, whatever it would run. -/
theorem step_of_refusalDec (hp : s.phase = .decoding) (h : refusalDec s = some r) : step s = .refused r := by
  have hbyte := (refusalByte_decoding hp).trans h
  rcases step_cases s with ⟨hidle, -⟩ | ⟨-, -, hstep⟩ | ⟨-, -, hstep⟩
  · exact nomatch hidle.symm.trans hp
  · rw [hstep, decodeWire_eq]
    split
    · exact execCont_of_refusal hbyte
    · exact execTerm_of_refusal hbyte
  · exact hstep.trans (exhaustInput_of_refusal hbyte)

end

/-- Settles O37, by what the two codes run. -/
theorem reservedCodesAreRefused : Obligations.ReservedCodesAreRefused := by
  unfold Obligations.ReservedCodesAreRefused
  exact fun s => ⟨exec_reserved6 s, exec_reserved7 s⟩

/-- Settles O23: the phase is the first thing a wire byte looks at. -/
theorem wireByteOutsideADecodeIsRefused : Obligations.WireByteOutsideADecodeIsRefused := by
  unfold Obligations.WireByteOutsideADecodeIsRefused
  exact fun s p hp => ⟨execCont_of_refusal (refusalByte_idle hp), execTerm_of_refusal (refusalByte_idle hp)⟩

/-- Settles O38: `PRE_BITS` is the first thing DEC.C looks at. -/
theorem preBitsAbove64AreRefused : Obligations.PreBitsAbove64AreRefused := by
  unfold Obligations.PreBitsAbove64AreRefused
  exact fun s h => execDecC_of_refusal (refusalDecC_of_lt h)

/-- Settles O39: with its buffers its own and its words in the build, all that is left to refuse is the form of the
words. -/
theorem nonNormalValueIsRefused : Obligations.NonNormalValueIsRefused := by
  unfold Obligations.NonNormalValueIsRefused
  intro s hn hf
  have hlast := (nonNormalValue_eq_true s).2 hn
  refine ⟨fun hc => execSizeBig_of_refusal ?_, fun howned => execEncBig_of_refusal ?_⟩
  · rw [refusalSizeBig_of_fits hf, firstRefusal_cons, firstRefusal_cons, hc, hlast]
    rfl
  · rw [refusalEncBig_of_fits hf, (refusalEncU64_eq_none s).2 howned, firstRefusal_cons, hlast]
    rfl

/-- Settles O40: `NWORDS` is the first thing both look at. -/
theorem valueBeyondNmaxIsRefused : Obligations.ValueBeyondNmaxIsRefused := by
  unfold Obligations.ValueBeyondNmaxIsRefused
  intro s m hm hlt
  have hover := (overNmax_eq_true s.cfg.nmax s.ports.nwords).2 ⟨m, hm, hlt⟩
  refine ⟨execSizeBig_of_refusal ?_, execEncBig_of_refusal ?_⟩
  · rw [refusalSizeBig, firstRefusal_cons, hover]
    rfl
  · rw [refusalEncBig, firstRefusal_cons, hover]
    rfl

/-- Settles O41: the bounds are looked at first, then the sharing; the two operations with a check of their own before
these pass it. -/
theorem bufferHazardsAreRefused : Obligations.BufferHazardsAreRefused := by
  unfold Obligations.BufferHazardsAreRefused
  intro s
  refine ⟨fun hf hc => execSizeBig_of_refusal ?_, fun h => execEncU64_of_refusal (refusalEncU64_of_lt h),
    fun h hc => execEncU64_of_refusal (refusalEncU64_of_contended h hc), fun hf h => execEncBig_of_refusal ?_,
    fun hf h hc => execEncBig_of_refusal ?_, fun h => execDec_of_refusal (refusalDec_of_lt h),
    fun h hc => execDec_of_refusal (refusalDec_of_contended h hc), fun hn h => execDecC_of_refusal ?_,
    fun hn h hc => execDecC_of_refusal ?_⟩
  · rw [refusalSizeBig_of_fits hf, firstRefusal_cons, hc]
    rfl
  · rw [refusalEncBig_of_fits hf, refusalEncU64_of_lt h]
    rfl
  · rw [refusalEncBig_of_fits hf, refusalEncU64_of_contended h hc]
    rfl
  · rw [refusalDecC_eq_refusalDec hn, refusalDec_of_lt h]
  · rw [refusalDecC_eq_refusalDec hn, refusalDec_of_contended h hc]

/-- Settles O42: a decode in progress refuses what DEC does, at each step. -/
theorem decodeInProgressRefusesBufferHazards : Obligations.DecodeInProgressRefusesBufferHazards := by
  unfold Obligations.DecodeInProgressRefusesBufferHazards
  intro s p hp
  have hall : ∀ r, refusalDec s = some r →
      step s = .refused r ∧ exec (.cont p) s = .refused r ∧ exec (.term p) s = .refused r := fun r hr =>
    have hbyte := (refusalByte_decoding hp).trans hr
    ⟨step_of_refusalDec hp hr, execCont_of_refusal hbyte, execTerm_of_refusal hbyte⟩
  exact ⟨fun h => hall _ (refusalDec_of_lt h), fun h hc => hall _ (refusalDec_of_contended h hc)⟩

end Sys2Proof.Machine

/-! A wire byte handed to a decode in progress reads nothing of the input (log 16). -/
namespace Sys2Proof.Machine

section
variable {s : State} {inp : Memory} {size len : Nat}

/-- The state with another input, of `len` bytes, of which the caller owns `size`. -/
def withInput (inp : Memory) (size len : Nat) (s : State) : State :=
  { s with inp := inp, inSize := size, ports := { s.ports with len := len } }

/-- An outcome with its next state, if it has one, replaced. -/
def mapNext (f : State → State) : Host.Outcome State Fault Refusal → Host.Outcome State Fault Refusal
  | .next t => .next (f t)
  | .fault r => .fault r
  | .refused r => .refused r

theorem finishDecode_withInput (inp : Memory) (size len : Nat) (s : State) (r : DecRegs) :
    finishDecode (withInput inp size len s) r = withInput inp size len (finishDecode s r) := by
  unfold finishDecode withInput
  dsimp only
  cases kindOfWords s.cfg.width r.dnw <;> rfl

theorem takeCont_withInput (inp : Memory) (size len : Nat) (p : Payload) (s : State) :
    takeCont p (withInput inp size len s) = mapNext (withInput inp size len) (takeCont p s) := by
  unfold takeCont withInput
  dsimp only
  cases byteStep s.cfg.width s.cfg.nmax p (nextIndex s.dec) <;> rfl

theorem takeTerm_withInput (inp : Memory) (size len : Nat) (p : Payload) (s : State) :
    takeTerm p (withInput inp size len s) = mapNext (withInput inp size len) (takeTerm p s) := by
  unfold takeTerm withInput
  dsimp only
  cases byteStep s.cfg.width s.cfg.nmax p (nextIndex s.dec) with
  | none => rfl
  | some r =>
    dsimp only
    cases terminate s.cfg.nmax r with
    | none => rfl
    | some r' => exact congrArg Host.Outcome.next (finishDecode_withInput inp size len s r')

/-- Of an input that the operation owns, a wire byte looks at the size alone, and only whether it is enough. -/
theorem refusalByte_withInput (howned : InputOwned s) (hle : len ≤ size) :
    refusalByte (withInput inp size len s) = refusalByte s := by
  have howned' : InputOwned (withInput inp size len s) := ⟨hle, howned.2⟩
  cases hp : s.phase with
  | idle => rw [refusalByte_idle hp, refusalByte_idle (s := withInput inp size len s) hp]
  | decoding =>
    rw [(refusalByte_eq_none s).2 ⟨hp, howned⟩, (refusalByte_eq_none (withInput inp size len s)).2 ⟨hp, howned'⟩]

theorem exec_withInput {i : Instr} (hi : ∃ p, i = .cont p ∨ i = .term p) (howned : InputOwned s) (hle : len ≤ size) :
    exec i (withInput inp size len s) = mapNext (withInput inp size len) (exec i s) := by
  have href := refusalByte_withInput (inp := inp) howned hle
  obtain ⟨p, rfl | rfl⟩ := hi
  · rw [exec_cont, exec_cont, execCont, execCont, href]
    cases refusalByte s with
    | some r => rfl
    | none => exact takeCont_withInput inp size len p s
  · rw [exec_term, exec_term, execTerm, execTerm, href]
    cases refusalByte s with
    | some r => rfl
    | none => exact takeTerm_withInput inp size len p s

end

/-- Settles O22: the input is handed through a wire byte unread. -/
theorem wireBytesDoNotReadTheInput : Obligations.WireBytesDoNotReadTheInput := by
  unfold Obligations.WireBytesDoNotReadTheInput
  intro i s inp size len hi howned hle
  have h := exec_withInput (inp := inp) hi howned hle
  cases he : exec i s with
  | next t => exact h.trans (congrArg _ he)
  | fault r => exact nomatch r
  | refused r => exact h.trans (congrArg _ he)

end Sys2Proof.Machine

/-! The two sizes complete, with their frame (`41_size_estimator.md` R100 to R102). -/
namespace Sys2Proof.Machine

/-- As many shifts by 7 as the value has groups clear the register. -/
theorem sizeLoop_sv (k n : Nat) (x : BitVec 64) (hx : x.toNat < 2 ^ (7 * k)) : (sizeLoop k ⟨x, n⟩).sv = 0 := by
  induction k generalizing x n with
  | zero => exact BitVec.eq_of_toNat_eq (by simpa [sizeLoop] using hx)
  | succ k ih =>
    unfold sizeLoop
    split
    · next h0 => exact h0
    · refine ih _ _ ?_
      rw [Nat.mul_succ, pow_add] at hx
      rw [shiftRight_seven_toNat, Nat.div_lt_iff_lt_mul (by norm_num)]
      exact hx

theorem canonicalLength_word_le (x : BitVec 64) : canonicalLength x.toNat ≤ 10 := by
  simpa using canonicalLength_le_add_ten (p := 0) (Nat.div_one x.toNat)

/-- The registers SIZE.U64 ends with. -/
theorem sizeLoop_ten (x : BitVec 64) : sizeLoop 10 ⟨x, 0⟩ = { sv := 0, sn := canonicalLength x.toNat } := by
  have hsv := sizeLoop_sv 10 0 x (x.isLt.trans (by norm_num))
  have hsn := sizeLoop_sn 10 0 x (canonicalLength_word_le x)
  rw [Nat.zero_add] at hsn
  rw [← hsv, ← hsn]

/-- Settles O7: the loop counts the groups of the value, which are one to ten. -/
theorem sizeU64CountsTheGroups : Obligations.SizeU64CountsTheGroups := by
  unfold Obligations.SizeU64CountsTheGroups
  intro s
  rw [exec_sizeU64, execSizeU64, sizeLoop_ten]
  exact ⟨_, rfl, rfl, rfl, canonicalLength_pos _, canonicalLength_word_le _, rfl,
    doneSize_sameInputs s _ _, rfl, rfl, rfl⟩

/-- Settles O8: what is not refused counts the groups from the highest word; the other case is that of the words' form
alone. -/
theorem sizeBigCountsTheGroups : Obligations.SizeBigCountsTheGroups := by
  unfold Obligations.SizeBigCountsTheGroups
  intro s hf hc
  refine ⟨fun hn => ?_, fun hn => (nonNormalValueIsRefused s hn hf).1 hc⟩
  have hnone := (refusalSizeBig_eq_none s).2 ⟨hf, hc, hn⟩
  exact ⟨doneSize s s.size (sizeBigCount s), by rw [exec_sizeBig, execSizeBig, hnone], rfl, sizeBigCount_eq hn,
    doneSize_sameInputs s _ _, rfl, rfl, rfl, rfl⟩

/-- Settles O9: both count the groups of the one Value. -/
theorem sizePathsAgree : Obligations.SizePathsAgree := by
  unfold Obligations.SizePathsAgree
  intro s hn hf hc hv
  obtain ⟨t, ht, hcount⟩ := exec_sizeU64_count s
  obtain ⟨u, hu, hcount'⟩ := exec_sizeBig_count hn hf hc
  exact ⟨t, u, ht, hu, by rw [hcount, hcount', hv]⟩

end Sys2Proof.Machine

/-! A failing encode leaves the first bytes of the canonical form, and the continuation flag is set on all but the last
byte (`42_encoder.md` R118, R122). -/
namespace Sys2Proof.Machine

section
variable {s : State} {v : Nat}

theorem failingPrefix_of_none {c : Config} (h : c.failPrefix = .none) (cap d : Nat) : failingPrefix c cap d = 0 := by
  rw [failingPrefix, h]

theorem failingPrefix_of_full {c : Config} (h : c.failPrefix = .full) (cap d : Nat) : failingPrefix c cap d = cap := by
  rw [failingPrefix, h]

/-- An encode into a buffer that is too small: its end, and every byte of the buffer after it. -/
theorem exec_leavesPrefix {i : Instr} (h : EncodeRequest i s v) (hcap : s.ports.cap < canonicalLength v) :
    ∃ t, exec i s = .next t ∧ t.res.ok = false ∧ t.phase = .idle ∧
      ∀ a, readCell t.out a =
        if a < failingPrefix s.cfg s.ports.cap s.draws then canonicalByte v a else readCell s.out a := by
  obtain ⟨e, he, hall, -⟩ := exec_emitsAll h
  refine ⟨_, he, ?_⟩
  cases e with
  | going r out =>
    obtain ⟨hholds, hpos⟩ := hall
    exact absurd (hpos ▸ hholds.fits) (not_le.2 hcap)
  | raised r out =>
    refine ⟨rfl, rfl, fun a => ?_⟩
    rw [finishEncode, raiseInsufficientCapacity_out, readCell_keepPrefix]
    split
    · next ha => exact hall.1.bytes a (ha.trans_le (failingPrefix_le _ _ _))
    · rfl

theorem le_canonicalByte {a : Nat} (h : a + 1 < canonicalLength v) : 128 ≤ (canonicalByte v a).toNat := by
  rw [canonicalByte_toNat, if_pos h]
  omega

theorem canonicalByte_last_lt (v : Nat) : (canonicalByte v (canonicalLength v - 1)).toNat < 128 := by
  rw [canonicalByte_toNat, canonicalLength_sub_add_one, if_neg (lt_irrefl _)]
  omega

end

/-- Settles O14: the emission wrote the canonical form up to the capacity, and the policy keeps its first bytes. -/
theorem failingEncodeLeavesAPrefix : Obligations.FailingEncodeLeavesAPrefix := by
  unfold Obligations.FailingEncodeLeavesAPrefix
  intro i s v h hcap
  obtain ⟨t, he, hok, hidle, hout⟩ := exec_leavesPrefix h hcap
  exact ⟨t, failingPrefix s.cfg s.ports.cap s.draws, he, hok, hidle, failingPrefix_le _ _ _,
    fun hnone => failingPrefix_of_none hnone _ _, fun hfull => failingPrefix_of_full hfull _ _,
    fun a ha => by rw [hout, if_pos ha], fun a ha => by rw [hout, if_neg (not_lt.2 ha)]⟩

/-- Settles O17: the bytes written are those of the canonical form, which has the flag on all but its last; what a
failing encode leaves ends before that one. -/
theorem encodeSetsTheFlagOnAllButTheLastByte : Obligations.EncodeSetsTheFlagOnAllButTheLastByte := by
  unfold Obligations.EncodeSetsTheFlagOnAllButTheLastByte
  intro i s t v h he
  refine ⟨fun hok => ?_, fun hok => ?_⟩
  · obtain ⟨hcount, hbytes⟩ := canonical_of_exec_ok h he hok
    have hpos := canonicalLength_pos v
    rw [hcount]
    refine ⟨hpos, fun a ha => ?_, ?_⟩
    · rw [hbytes a (by omega)]
      exact le_canonicalByte ha
    · rw [hbytes _ (by omega)]
      exact canonicalByte_last_lt v
  · obtain ⟨u, heu, hcap, -⟩ := encodeWritesTheCanonicalForm i s v h
    obtain rfl := Host.Outcome.next.inj (he.symm.trans heu)
    have hlt : s.ports.cap < canonicalLength v := not_le.1 fun hle => by simp [hcap.2 hle] at hok
    obtain ⟨u, k, heu, -, -, hk, -, -, hprefix, hrest⟩ := failingEncodeLeavesAPrefix i s v h hlt
    obtain rfl := Host.Outcome.next.inj (he.symm.trans heu)
    refine ⟨k, hk, fun a ha => ?_, hrest⟩
    rw [hprefix a ha]
    exact le_canonicalByte (by omega)

/-! ## A half step on numbers (`40_bitgroup_tables.md` R96) -/

section
variable {w : Width} {cap : Nat} {r : EncRegs} {out : Memory}

/-- A number is its first `k` groups at their places and what is left above them. -/
theorem sum_groups_add (x k : Nat) :
    (∑ j ∈ Finset.range k, x / 2 ^ (7 * j) % 128 * 2 ^ (7 * j)) + x / 2 ^ (7 * k) * 2 ^ (7 * k) = x := by
  induction k with
  | zero => simp
  | succ k ih =>
    rw [Finset.sum_range_succ, div_pow_succ_group, Nat.mul_succ, pow_add, add_assoc]
    exact (congrArg _ (mod_add_div_shifted (x / 2 ^ (7 * k)) (2 ^ 7) (2 ^ (7 * k)))).trans ih

theorem div_group_div_pow (x j : Nat) : x / 128 / 2 ^ (7 * j) = x / 2 ^ (7 * (j + 1)) := by
  rw [Nat.div_div_eq_div_mul, Nat.mul_succ, pow_add, mul_comm]
  rfl

theorem flagged_group_toNat (acc : Word) : (wireByte true (lowGroup acc)).toNat = acc.toNat % 128 + 128 := by
  rw [wireByte_toNat, lowGroup_toNat, if_pos rfl]

/-- By induction on the groups: with room for them all, the flush writes the accumulator's groups in order and keeps
what is above them. -/
theorem flushGroups_of_le (k : Nat) (r : EncRegs) (out : Memory) (hcap : r.epos + k ≤ cap) :
    ∃ r' out', flushGroups cap k r out = .going r' out' ∧ r'.estep = r.estep ∧ r'.epos = r.epos + k ∧
      r'.eacc.toNat = r.eacc.toNat / 2 ^ (7 * k) ∧
      ∀ j < k, (readCell out' (r.epos + j)).toNat = r.eacc.toNat / 2 ^ (7 * j) % 128 + 128 := by
  induction k generalizing r out with
  | zero => exact ⟨r, out, rfl, rfl, rfl, (Nat.div_one _).symm, nofun⟩
  | succ k ih =>
    have hemit := flushGroup_of_lt cap r out (by omega)
    obtain ⟨r', out', he, hstep, hpos, hacc, hbytes⟩ :=
      ih { r with epos := r.epos + 1, eacc := r.eacc >>> 7, eg := r.eg - 1 }
        (writeOutput out r.epos (wireByte true (lowGroup r.eacc))) (by dsimp only; omega)
    dsimp only at hstep hpos hacc hbytes
    rw [shiftRight_seven_toNat] at hacc hbytes
    refine ⟨r', out', ?_, hstep, by omega, hacc.trans (div_group_div_pow _ _), fun j hj => ?_⟩
    · rw [flushGroups, hemit, andThen_going, he]
    · cases j with
      | zero =>
        have happ := flushGroups_appends cap k { r with epos := r.epos + 1, eacc := r.eacc >>> 7, eg := r.eg - 1 }
          (writeOutput out r.epos (wireByte true (lowGroup r.eacc)))
        rw [he] at happ
        rw [Nat.add_zero, happ.below r.epos (Nat.lt_succ_self _), writeOutput, readCell_writeCell_same,
          flagged_group_toNat]
        simp
      | succ j =>
        rw [show r.epos + (j + 1) = r.epos + 1 + j by omega, hbytes j (by omega), div_group_div_pow]

end

/-- Settles O18: the placed half is remainder and half as one number, which the flush cuts into its groups and the next
remainder. -/
theorem halfStepLosesNoBit : Obligations.HalfStepLosesNoBit := by
  unfold Obligations.HalfStepLosesNoBit
  intro w cap half h r out hacc hh hcap
  obtain ⟨hplaced, hlt⟩ := placeHalf_eacc_toNat half hh hacc
  obtain ⟨r', out', he, hstep, hpos, hrest, hbytes⟩ :=
    flushGroups_of_le (bitGroupTable w r.estep).groups (placeHalf w half h r) out hcap
  refine ⟨{ r' with estep := r'.estep + 1 }, out', ?_, ?_, hpos, ?_, fun j hj => ?_, ?_⟩
  · rw [halfStep, he, andThen_going]
  · exact congrArg (· + 1) hstep
  · have hnext : r'.estep = r.estep := hstep
    rw [shift_add_half, pow_add] at hlt
    rw [hrest, hnext, Nat.div_lt_iff_lt_mul (Nat.pow_pos (by norm_num))]
    exact hlt
  · exact (Nat.le_add_left _ _).trans (hbytes j hj).ge
  · rw [← hplaced, hrest]
    refine (sum_groups_add _ _).symm.trans (congrArg (· + _) (Finset.sum_congr rfl fun j hj => ?_))
    have hbyte : (readCell out' (r.epos + j)).toNat = _ := hbytes j (Finset.mem_range.1 hj)
    rw [hbyte, Nat.add_mod_right, Nat.mod_mod]

end Sys2Proof.Machine

/-! The kind of a result, and inputs that differ after the terminator (`43_decoder.md` R150, R152, R155). -/
namespace Sys2Proof.Machine

section
variable {w : Width} {nmax : Option Nat} {s t : State} {pv n k b v : Nat} {r r' : DecRegs} {i : Instr}

theorem streamValue_lt (s : State) (pv n k : Nat) : streamValue s pv n k < 2 ^ (n + 7 * k) := by
  induction k with
  | zero =>
    rw [streamValue_zero]
    exact Nat.mod_lt _ (Nat.pow_pos (by norm_num))
  | succ k ih =>
    have hgroup := Nat.mul_le_mul_right (2 ^ (n + 7 * k)) (Nat.le_of_lt_succ (payload (readInput s k)).isLt)
    rw [streamValue_succ, Nat.mul_succ, ← Nat.add_assoc, pow_add _ (n + 7 * k)]
    omega

/-- A decode of a terminated input that is not refused ended with its words. -/
theorem hasEnded_of_next (h : DecodeRequest i s pv n) (hk : TerminatorAt s k) (he : exec i s = .next t) :
    ∃ r, t = finishDecode s r ∧ HasEnded s pv n k r := by
  rcases exec_answers h hk with ⟨r, he', hended⟩ | ⟨he', -⟩
  · exact ⟨r, Host.Outcome.next.inj (he.symm.trans he'), hended⟩
  · exact nomatch he.symm.trans he'

theorem bits_mul_le_iff (w : Width) (m : Nat) : w.bits * m ≤ 64 ↔ m ≤ 64 / w.bits := by
  cases w with
  | w32 => simp only [Width.bits]; omega
  | w64 => simp only [Width.bits]; omega

theorem finishDecode_resNW (h : (finishDecode s r).res.kind = .big) : (finishDecode s r).res.resNW = r.dnw := by
  rw [finishDecode_kind] at h
  rw [finishDecode, h]
  rfl

theorem kind_eq_big_of_ne {k : ResultKind} (h : k ≠ .u64) : k = .big := by
  cases k with
  | u64 => exact absurd rfl h
  | big => rfl

/-- The words closed out at boundaries alone are more than 64 bits, so the result is a word sequence. -/
theorem HasEnded.kind_eq_big (h : HasEnded s pv n k r)
    (hlong : 64 < s.cfg.width.bits * ((n + 7 * (k + 1)) / s.cfg.width.bits)) :
    (finishDecode s r).res.kind = .big := by
  refine kind_eq_big_of_ne fun hkind => ?_
  have hwords := h.kind_eq_u64_iff.1 hkind
  have hle := div_le_wordsOfStream s.cfg.width (streamValue s pv n (k + 1)) (le_refl (n + 7 * (k + 1)))
  exact absurd (hlong.trans_le (Nat.mul_le_mul_left _ hle)) (not_lt.2 hwords)

theorem HasEnded.value_lt_of_kind (h : HasEnded s pv n k r) (hkind : (finishDecode s r).res.kind = .u64) :
    streamValue s pv n (k + 1) < 2 ^ 64 := by
  rw [← resultValue_finishDecode h.1, resultValue_of_kind_u64 hkind]
  exact BitVec.isLt _

/-- An input whose last group is not zero, or is the only one, is as long as the canonical form of its number. -/
theorem canonicalLength_streamValue (hlast : k = 0 ∨ payload (readInput s k) ≠ 0) :
    canonicalLength (streamValue s pv 0 (k + 1)) = k + 1 := by
  refine Nat.le_antisymm ((canonicalLength_le_iff _ _).2 ⟨by omega, ?_⟩) ?_
  · simpa using streamValue_lt s pv 0 (k + 1)
  · rw [Nat.succ_le_iff, lt_canonicalLength_iff]
    refine hlast.imp_right fun hgroup => ?_
    have hpos : 0 < (payload (readInput s k)).toNat :=
      Nat.pos_of_ne_zero fun h0 => hgroup (BitVec.eq_of_toNat_eq h0)
    rw [streamValue_succ, Nat.zero_add, Nat.add_mul_div_right _ _ (Nat.pow_pos (by norm_num))]
    exact (Nat.add_pos_right _ hpos).ne'

/-- A terminator that is not zero has a payload that is not zero. -/
theorem TerminatorAt.payload_ne_zero (hk : TerminatorAt s k) (h : readInput s k ≠ 0) :
    payload (readInput s k) ≠ 0 := by
  refine fun h0 => h (BitVec.eq_of_toNat_eq ?_)
  have hmod := payload_toNat (readInput s k)
  rw [h0, Nat.mod_eq_of_lt hk.2.1] at hmod
  exact hmod.symm

theorem HasEnded.kind_of_canonical (h : HasEnded s pv 0 k r) (hlast : k = 0 ∨ payload (readInput s k) ≠ 0) :
    (finishDecode s r).res.kind = .u64 ↔ streamValue s pv 0 (k + 1) < 2 ^ 64 := by
  have hwords := wordsOfStream_canonical_le_iff s.cfg.width (streamValue s pv 0 (k + 1))
  rw [canonicalLength_streamValue hlast] at hwords
  rw [h.kind_eq_u64_iff, Nat.zero_add, hwords]

theorem lt_bits_mul_div (w : Width) (hb : 128 ≤ b) : 64 < w.bits * (b / w.bits) := by
  cases w with
  | w32 => simp only [Width.bits]; omega
  | w64 => simp only [Width.bits]; omega

/-! ## The same number taken in by two decodes -/

/-- The number and the bits taken in decide the words. -/
theorem Ended.dws_eq (h : Ended w nmax r b v) (h' : Ended w nmax r' b v) : r.dws = r'.dws := by
  have hwords : wordNumbers r = wordNumbers r' := by
    have hbase : 1 < 2 ^ w.bits := Nat.one_lt_two_pow (by have := seven_lt_bits w; omega)
    refine Nat.ofDigits_inj_of_len_eq hbase ?_ ?_ ?_ (h.value.trans h'.value.symm)
    · rw [wordNumbers_length, wordNumbers_length, h.length, h'.length]
    · simpa [wordNumbers] using h.range.dws
    · simpa [wordNumbers] using h'.range.dws
  exact List.map_injective_iff.2 (fun _ _ => BitVec.eq_of_toNat_eq) hwords

/-- Decodes that ended with one number, taken in as one count of bits, have the same results. -/
theorem finishDecode_sameResults_of_ended (h : Ended s.cfg.width nmax r b v) (h' : Ended s.cfg.width nmax r' b v)
    (hcfg : t.cfg = s.cfg) (hout : t.out = s.out) (hdi : r.di = r'.di) :
    SameResults .dec (finishDecode s r) (finishDecode t r') := by
  have hdws := h.dws_eq h'
  have hdnw : r'.dnw = r.dnw := by rw [h'.range.dnw, h.range.dnw, hdws]
  unfold finishDecode
  rw [hcfg, hdnw]
  cases hkind : kindOfWords s.cfg.width r.dnw with
  | u64 =>
    have hres : res64OfWords s.cfg.width r = res64OfWords s.cfg.width r' :=
      BitVec.eq_of_toNat_eq ((h.res64_toNat hkind).trans (h'.res64_toNat (hdnw ▸ hkind)).symm)
    exact ⟨hout.symm, rfl, hdi, fun _ => ⟨rfl, fun _ => hres, nofun⟩⟩
  | big =>
    refine ⟨hout.symm, rfl, hdi, fun _ => ⟨rfl, nofun, fun _ => ⟨hdnw.symm, fun j _ => ?_⟩⟩⟩
    exact congrArg (fun ws => readCell (writeResultWords ws) j) hdws

/-- What has ended is in the build. -/
theorem HasEnded.not_tooLong (h : HasEnded s pv n k r) : ¬ TooLong s pv n k := by
  have hfits := h.1.range.nmax
  rw [h.1.length] at hfits
  rw [TooLong, hfits]
  exact Bool.false_ne_true

theorem TerminatorAt.congr (hk : TerminatorAt s k) (hlen : k < t.ports.len)
    (hin : ∀ j ≤ k, readInput t j = readInput s j) : TerminatorAt t k := by
  obtain ⟨-, hterm, hcont⟩ := hk
  refine ⟨hlen, ?_, fun j hj => ?_⟩
  · rwa [hin k le_rfl]
  · rw [hin j hj.le]
    exact hcont j hj

theorem streamValue_congr {m : Nat} (h : ∀ j < m, readInput t j = readInput s j) (pv n : Nat) :
    streamValue t pv n m = streamValue s pv n m := by
  refine congrArg _ (Finset.sum_congr rfl fun j hj => ?_)
  rw [h j (Finset.mem_range.1 hj)]

/-- What decodes of inputs that agree up to the terminator may answer is the same to the host. -/
theorem AnswersAt.sameOutcome {o o' : Host.Outcome State Fault Refusal} (h : AnswersAt s pv n k o)
    (h' : AnswersAt t pv n k o') (hcfg : t.cfg = s.cfg) (hout : t.out = s.out)
    (hin : ∀ j ≤ k, readInput t j = readInput s j) : SameOutcome .dec o o' := by
  have hvalue : streamValue t pv n (k + 1) = streamValue s pv n (k + 1) :=
    streamValue_congr (fun j hj => hin j (Nat.le_of_lt_succ hj)) pv n
  have hended : ∀ {q}, HasEnded t pv n k q → HasEnded s pv n k q := fun {q} hq => by
    rwa [HasEnded, hvalue, hcfg] at hq
  have hlong : TooLong t pv n k → TooLong s pv n k := fun hq => by rwa [TooLong, hvalue, hcfg] at hq
  rcases h with ⟨r, rfl, hr⟩ | ⟨rfl, hr⟩
  · rcases h' with ⟨r', rfl, hr'⟩ | ⟨rfl, hr'⟩
    · have hr' := hended hr'
      exact finishDecode_sameResults_of_ended hr.1 hr'.1 hcfg hout (hr.2.trans hr'.2.symm)
    · exact absurd (hlong hr') hr.not_tooLong
  · rcases h' with ⟨r', rfl, hr'⟩ | ⟨rfl, -⟩
    · exact absurd hr (hended hr').not_tooLong
    · rfl

theorem sameOutcome_of_decode {o o' : Host.Outcome State Fault Refusal} (hi : i = .dec ∨ i = .decC)
    (h : SameOutcome .dec o o') : SameOutcome i o o' := by
  rcases hi with rfl | rfl
  · exact h
  · exact sameOutcome_decC_iff.2 h

/-- A decode whose input is its own is a request, or its `PRE_BITS` are out of range. -/
theorem decodeRequest_or_preBits (hi : i = .dec ∨ i = .decC) (howned : InputOwned s) :
    (∃ pv n, DecodeRequest i s pv n) ∨ (i = .decC ∧ 64 < s.ports.preBits.toNat) := by
  rcases hi with rfl | rfl
  · exact .inl ⟨0, 0, howned, .inl ⟨rfl, rfl, rfl⟩⟩
  · rcases Nat.lt_or_ge 64 s.ports.preBits.toNat with hn | hn
    · exact .inr ⟨rfl, hn⟩
    · exact .inl ⟨_, _, howned, .inr ⟨rfl, rfl, rfl, hn⟩⟩

end

/-- Settles O25: the words a decode ended with are as many as the statement counts, and their number selects the
kind. -/
theorem kindFollowsTheNumberOfWords : Obligations.KindFollowsTheNumberOfWords := by
  unfold Obligations.KindFollowsTheNumberOfWords
  intro i s t pv n k h hk he
  obtain ⟨r, rfl, hended⟩ := hasEnded_of_next h hk he
  refine ⟨hended.kind_eq_u64_iff.trans (bits_mul_le_iff _ _), fun hbig => ?_⟩
  rw [finishDecode_resNW hbig, hended.1.range.dnw, hended.1.length]

/-- Settles O26: a 64-bit integer is the number delivered; a canonical input has as many words as its number needs; long
input has more than 64 bits of words closed out. -/
theorem kindOfCanonicalAndOfLongInput : Obligations.KindOfCanonicalAndOfLongInput := by
  unfold Obligations.KindOfCanonicalAndOfLongInput
  intro i s t pv n k h hk he
  obtain ⟨r, rfl, hended⟩ := hasEnded_of_next h hk he
  refine ⟨hended.value_lt_of_kind, fun hn hlast => ?_, fun hlong => hended.kind_eq_big (lt_bits_mul_div _ hlong),
    fun hw hlong => hended.kind_eq_big ?_⟩
  · subst hn
    exact hended.kind_of_canonical (hlast.imp_right hk.payload_ne_zero)
  · rw [hw, Width.bits]
    omega

/-- Settles O28: of no input byte none has bit 7 clear. -/
theorem emptyInputIsUnterminatedForEverySeed : Obligations.EmptyInputIsUnterminatedForEverySeed := by
  unfold Obligations.EmptyInputIsUnterminatedForEverySeed
  intro i s pv n h hlen hfits
  have hno : NoTerminator s := fun j hj => by omega
  obtain ⟨r, he⟩ := exec_eq_raiseUnterminated h hno (by rwa [hlen])
  exact ⟨_, he, rfl, rfl⟩

/-- Settles O30: the two inputs are terminated at one index and are one number up to it. -/
theorem bytesAfterTheTerminatorDoNotMatter : Obligations.BytesAfterTheTerminatorDoNotMatter := by
  unfold Obligations.BytesAfterTheTerminatorDoNotMatter
  intro i s k len size inp hi howned hk hlen hle hin
  change SameOutcome i (exec i s) (exec i (withInput inp size len s))
  refine sameOutcome_of_decode hi ?_
  rcases decodeRequest_or_preBits hi howned with ⟨pv, n, h⟩ | ⟨rfl, hn⟩
  · have h' : DecodeRequest i (withInput inp size len s) pv n := ⟨⟨hle, h.1.2⟩, h.2⟩
    have hk' : TerminatorAt (withInput inp size len s) k := hk.congr hlen hin
    exact (exec_answers h hk).sameOutcome (exec_answers h' hk') rfl rfl hin
  · rw [preBitsAbove64AreRefused s hn, preBitsAbove64AreRefused (withInput inp size len s) hn]
    rfl

end Sys2Proof.Machine

/-! A decode that wants a word more than the build holds (`60_exceptions.md` R178), also from registers that no decode
leaves. -/
namespace Sys2Proof.Machine

section
variable {w : Width} {nmax : Option Nat} {s t : State} {pv n k : Nat} {r r' : DecRegs} {p : Payload} {i : Instr}
  {e : Refusal}

/-! ## An input without a terminator -/

/-- What has been taken in is in the build. -/
theorem HasRead.fits (h : HasRead s pv n r) : overNmax s.cfg.nmax ((n + 7 * r.di) / s.cfg.width.bits) = false := by
  rw [h.boundary.1]
  exact h.range.nmax

/-- By induction on the bytes left: a loop that is not refused took them all in. -/
theorem decodeLoop_fits (fuel : Nat) (h : HasRead s pv n s.dec) (hno : NoTerminator s) (hdi : s.dec.di ≤ s.ports.len)
    (hfuel : s.ports.len ≤ s.dec.di + fuel) (he : decodeLoop fuel s = .next t) :
    overNmax s.cfg.nmax ((n + 7 * s.ports.len) / s.cfg.width.bits) = false := by
  induction fuel generalizing s with
  | zero =>
    rw [Nat.le_antisymm hfuel hdi]
    exact h.fits
  | succ fuel ih =>
    rw [decodeLoop] at he
    by_cases hlt : s.dec.di < s.ports.len
    · rw [if_pos hlt, contFlag_eq, if_pos (decide_eq_true (hno _ hlt)), takeCont] at he
      rcases h.byteStep with ⟨r, hs, hread, hdi'⟩ | ⟨hs, -⟩
      · simp only [hs] at he
        exact ih (s := { s with dec := r }) hread hno (by dsimp only; omega) (by dsimp only; omega) he
      · simp only [hs] at he
        exact nomatch he
    · rw [show s.ports.len = s.dec.di by omega]
      exact h.fits

theorem exec_fits_of_next (h : DecodeRequest i s pv n) (hno : NoTerminator s) (he : exec i s = .next t) :
    overNmax s.cfg.nmax ((n + 7 * s.ports.len) / s.cfg.width.bits) = false := by
  obtain ⟨pre, pb, rfl, rfl, hpb, hrun⟩ := exec_eq_runDecode h
  rw [hrun, runDecode, beginDecode] at he
  rcases seed_taken s.cfg.width s.cfg.nmax pre s.dec hpb with ⟨r, hs, htaken, hdi⟩ | ⟨hs, -⟩
  · have hread : HasRead s pre.toNat pb.toNat r := by
      rw [HasRead, hdi, streamValue_zero]
      exact htaken
    simp only [hs] at he
    exact decodeLoop_fits (s := { s with phase := .decoding, dec := r }) _ hread hno (by dsimp only; omega)
      (by dsimp only; omega) he
  · simp only [hs] at he
    exact nomatch he

/-- The words of the whole decode are more than the build holds. -/
def Overruns (s : State) (pv n : Nat) : Prop :=
  (∃ k, TerminatorAt s k ∧
      ¬ FitsNmax s (wordsOfStream s.cfg.width (n + 7 * (k + 1)) (streamValue s pv n (k + 1)))) ∨
    (NoTerminator s ∧ ¬ FitsNmax s ((n + 7 * s.ports.len) / s.cfg.width.bits))

/-- A decode that is not refused before it starts is refused for want of a word, exactly when it overruns. -/
theorem exec_decode_refused_iff (h : DecodeRequest i s pv n) :
    exec i s = .refused e ↔ e = .nmaxExceeded ∧ Overruns s pv n := by
  constructor
  · intro he
    by_cases hno : NoTerminator s
    · rcases exec_answersUnterminated h hno with ⟨r, he'⟩ | ⟨he', hover⟩
      · exact nomatch he.symm.trans he'
      · exact ⟨Host.Outcome.refused.inj (he.symm.trans he'), .inr ⟨hno, overNmax_eq_true_iff_not_fits.1 hover⟩⟩
    · obtain ⟨k, hk⟩ := exists_terminatorAt hno
      rcases exec_answers h hk with ⟨r, he', -⟩ | ⟨he', hlong⟩
      · exact nomatch he.symm.trans he'
      · exact ⟨Host.Outcome.refused.inj (he.symm.trans he'), .inl ⟨k, hk, overNmax_eq_true_iff_not_fits.1 hlong⟩⟩
  · rintro ⟨rfl, ⟨k, hk, hlong⟩ | ⟨hno, hover⟩⟩
    · rcases exec_answers h hk with ⟨r, -, hended⟩ | ⟨he, -⟩
      · exact absurd (overNmax_eq_true_iff_not_fits.2 hlong) hended.not_tooLong
      · exact he
    · rcases exec_answersUnterminated h hno with ⟨r, he⟩ | ⟨he, -⟩
      · exact absurd (overNmax_eq_true_iff_not_fits.2 hover) (by simp [exec_fits_of_next h hno he])
      · exact he

/-! ## Wire bytes, whatever the registers hold -/

theorem not_fitsNmax_of_lt {m a : Nat} (hm : s.cfg.nmax = some m) (h : m < a) : ¬ FitsNmax s a :=
  fun hf => absurd (hf m hm) (not_le.2 h)

theorem offset_toNat_le (off : BitVec 7) : (off + 7#7).toNat ≤ off.toNat + 7 := by
  rw [BitVec.toNat_add]
  exact Nat.mod_le _ _

theorem full_of_byteStep_eq_none (h : byteStep w nmax p r = none) :
    w.bits ≤ r.doff.toNat + 7 ∧ overNmax nmax (r.dws.length + 1) = true := by
  have hle := offset_toNat_le r.doff
  unfold byteStep at h
  dsimp only at h
  split at h
  · exact nomatch h
  · split at h
    · next hclose =>
        have hover := appendWord_eq_none.1 hclose
        exact ⟨by omega, hover⟩
    · exact nomatch h

/-- A byte that is taken in closes out no word or one, whose overflow bits start the new accumulator. -/
theorem byteStep_cases (h : byteStep w nmax p r = some r') :
    r'.di = r.di ∧ (r'.dws = r.dws ∨
      w.bits ≤ (r.doff + 7#7).toNat ∧ r'.dws.length = r.dws.length + 1 ∧
        r'.dacc = (p >>> (7 - (r.doff + 7#7 - BitVec.ofNat 7 w.bits).toNat)).setWidth 64) := by
  unfold byteStep at h
  dsimp only at h
  split at h
  · obtain rfl := Option.some.inj h
    exact ⟨rfl, .inl rfl⟩
  · next hfull =>
      split at h
      · exact nomatch h
      · next q hq =>
          obtain ⟨-, rfl⟩ := appendWord_eq_some hq
          obtain rfl := Option.some.inj h
          exact ⟨rfl, .inr ⟨Nat.not_lt.1 hfull, by simp, rfl⟩⟩

/-- An offset no decode leaves: if a word is closed out there, the overflow bits are those the numbers say. -/
theorem overflow_toNat (hoff : w.bits ≤ r.doff.toNat) (hfull : w.bits ≤ (r.doff + 7#7).toNat) :
    ((p >>> (7 - (r.doff + 7#7 - BitVec.ofNat 7 w.bits).toNat)).setWidth 64).toNat =
      accAfter w r.dacc.toNat r.doff.toNat p.toNat := by
  have hlt := r.doff.isLt
  have hb := seven_lt_bits w
  have hmod : (r.doff + 7#7).toNat = (r.doff.toNat + 7) % 128 := BitVec.toNat_add _ _
  have hadd : (r.doff + 7#7).toNat = r.doff.toNat + 7 := by omega
  have hp : p.toNat >>> (7 - (r.doff.toNat + 7 - w.bits)) < 2 ^ 64 :=
    (Nat.shiftRight_le _ _).trans_lt (p.isLt.trans (by norm_num))
  rw [sub_bits_toNat hfull, hadd, accAfter, if_neg (by omega), BitVec.toNat_setWidth, BitVec.toNat_ushiftRight,
    Nat.mod_eq_of_lt hp]

/-- The words after a terminator with payload `p`, as the statements count them. -/
def wordsOfTerm (w : Width) (r : DecRegs) (p : Payload) : List Nat :=
  wordsAtEnd (wordsAfter w (wordNumbers r) r.dacc.toNat r.doff.toNat p.toNat)
    (accAfter w r.dacc.toNat r.doff.toNat p.toNat)

theorem wordsOfTerm_length (w : Width) (r : DecRegs) (p : Payload) :
    (wordsOfTerm w r p).length = r.dws.length + (if r.doff.toNat + 7 < w.bits then 0 else 1) +
      if accAfter w r.dacc.toNat r.doff.toNat p.toNat = 0 then 0 else 1 := by
  rw [wordsOfTerm, wordsAtEnd_length, wordsAfter_length, wordNumbers_length]

/-- A trailing accumulator that is not zero is one of the words counted. -/
theorem succ_length_le_wordsOfTerm (h : byteStep w nmax p r = some r') (h0 : r'.dacc ≠ 0) :
    r'.dws.length + 1 ≤ (wordsOfTerm w r p).length := by
  have hb := seven_lt_bits w
  replace h0 := word_toNat_ne_zero h0
  rcases Nat.lt_or_ge r.doff.toNat w.bits with hoff | hoff
  · obtain ⟨hacc, -, hws, -⟩ := byteStep_numbers hoff h
    rw [wordsOfTerm, ← hacc, ← hws, wordsAtEnd_length, if_neg h0, wordNumbers_length]
  · rw [wordsOfTerm_length, if_neg (by omega)]
    rcases (byteStep_cases h).2 with hsame | ⟨hfull, hlen, hacc⟩
    · rw [hsame]
      omega
    · rw [hacc, overflow_toNat hoff hfull] at h0
      rw [hlen, if_neg h0]

theorem takeCont_overruns (h : takeCont p s = .refused e) : ¬ FitsNmax s
    (wordsAfter s.cfg.width (wordNumbers s.dec) s.dec.dacc.toNat s.dec.doff.toNat p.toNat).length := by
  rw [takeCont] at h
  split at h
  · next hnone =>
      obtain ⟨hfull, hover⟩ := full_of_byteStep_eq_none hnone
      rw [nextIndex_doff] at hfull
      rw [wordsAfter_length, if_neg (Nat.not_lt.2 hfull), wordNumbers_length]
      exact overNmax_eq_true_iff_not_fits.1 hover
  · exact nomatch h

theorem takeTerm_overruns (h : takeTerm p s = .refused e) :
    ¬ FitsNmax s (wordsOfTerm s.cfg.width s.dec p).length := by
  refine overNmax_eq_true_iff_not_fits.1 ?_
  rw [takeTerm] at h
  split at h
  · next hnone =>
      obtain ⟨hfull, hover⟩ := full_of_byteStep_eq_none hnone
      rw [nextIndex_doff] at hfull
      refine overNmax_mono hover ?_
      rw [wordsOfTerm_length, if_neg (Nat.not_lt.2 hfull)]
      exact Nat.le_add_right _ _
  · next r hsome =>
      split at h
      · next hnone =>
          obtain ⟨h0, hover⟩ := terminate_eq_none.1 hnone
          exact overNmax_mono hover (succ_length_le_wordsOfTerm (r := nextIndex s.dec) hsome h0)
      · exact nomatch h

end

/-- Settles O31: what is not refused has all its words in the build. -/
theorem decodeBeyondNmaxIsRefused : Obligations.DecodeBeyondNmaxIsRefused := by
  unfold Obligations.DecodeBeyondNmaxIsRefused
  intro i s pv n m h hm hlong
  refine (exec_decode_refused_iff h).2 ⟨rfl, hlong.imp ?_ ?_⟩
  · rintro ⟨k, hk, hlt⟩
    exact ⟨k, hk, not_fitsNmax_of_lt hm hlt⟩
  · rintro ⟨hno, hlt⟩
    exact ⟨hno, not_fitsNmax_of_lt hm hlt⟩

/-! ## A decode as a run of steps (log 3) -/

section
variable {s t : State}

theorem core_run_one (M : Host.Core) (s : M.State) : M.run 1 s = M.step s := by
  rw [Host.Core.run]
  cases M.step s <;> rfl

theorem core_run_succ (M : Host.Core) (k : Nat) {s t : M.State} (h : M.step s = .next t) :
    M.run (k + 1) s = M.run k t := by
  rw [Host.Core.run, h]

theorem run_one (s : State) : Host.Core.run Sys2Proof.core 1 s = step s := core_run_one Sys2Proof.core s

theorem run_succ_of_next (k : Nat) (h : step s = .next t) :
    Host.Core.run Sys2Proof.core (k + 1) s = Host.Core.run Sys2Proof.core k t := core_run_succ Sys2Proof.core k h

theorem step_decoding (hp : s.phase = .decoding) (howned : InputOwned s) (hlt : s.dec.di < s.ports.len) :
    step s = if contFlag (readInput s s.dec.di) then takeCont (payload (readInput s s.dec.di)) s
      else takeTerm (payload (readInput s s.dec.di)) s := by
  rw [step_of_fetch (fetch_decoding hp hlt), decodeWire_eq]
  cases contFlag (readInput s s.dec.di) with
  | true => exact execCont_eq hp howned
  | false => exact execTerm_eq hp howned

/-- By induction on the bytes the loop may still read, one step for each and one for the end: the steps of a decode in
progress come to the outcome of its loop. -/
theorem exists_run_eq_decodeLoop (fuel : Nat) (hp : s.phase = .decoding) (howned : InputOwned s)
    (hfuel : s.ports.len ≤ s.dec.di + fuel) :
    ∃ k, k ≤ fuel + 1 ∧ Host.Core.run Sys2Proof.core k s = decodeLoop fuel s := by
  induction fuel generalizing s with
  | zero => exact ⟨1, le_rfl, by rw [run_one, step_of_exhausted hp hfuel, exhaustInput_eq hp howned, decodeLoop]⟩
  | succ fuel ih =>
    rw [decodeLoop]
    by_cases hlt : s.dec.di < s.ports.len
    · have hstep := step_decoding hp howned hlt
      rw [if_pos hlt]
      cases hc : contFlag (readInput s s.dec.di) with
      | true =>
        rw [hc, if_pos rfl] at hstep
        rw [if_pos rfl]
        cases htake : takeCont (payload (readInput s s.dec.di)) s with
        | next u =>
          obtain ⟨r, hs, rfl⟩ := takeCont_next htake
          have hdi := (byteStep_cases hs).1
          rw [nextIndex_di] at hdi
          obtain ⟨k, hk, hrun⟩ := ih (s := { s with dec := r }) hp howned (by dsimp only; omega)
          exact ⟨k + 1, by omega, (run_succ_of_next k (hstep.trans htake)).trans hrun⟩
        | fault q => exact nomatch q
        | refused q => exact ⟨1, by omega, (run_one s).trans (hstep.trans htake)⟩
      | false =>
        rw [hc, if_neg Bool.false_ne_true] at hstep
        rw [if_neg Bool.false_ne_true]
        exact ⟨1, by omega, (run_one s).trans hstep⟩
    · rw [if_neg hlt]
      exact ⟨1, by omega, by rw [run_one, step_of_exhausted hp (Nat.not_lt.1 hlt), exhaustInput_eq hp howned]⟩

theorem decodeLoop_idle {fuel : Nat} (hr : DecRange s.cfg.width s.cfg.nmax s.dec) (hb : DecBetween s.cfg.width s.dec)
    (h : decodeLoop fuel s = .next t) : t.phase = .idle := by
  obtain ⟨r, -, rfl | rfl⟩ := decodeLoop_next hr hb h
  · rfl
  · exact finishDecode_phase _ r

end

/-- Settles O35: DEC.C is its seed and the loop, and the loop is a run of steps. -/
theorem decCIsTheRunOfItsWireBytes : Obligations.DecCIsTheRunOfItsWireBytes := by
  unfold Obligations.DecCIsTheRunOfItsWireBytes
  intro s b h hbegin
  obtain ⟨howned, ⟨hi, -⟩ | ⟨-, -, -, hn⟩⟩ := h
  · exact nomatch hi
  · have hexec : exec .decC s = decodeLoop b.ports.len b := by
      rw [exec_decC, execDecC, (refusalDecC_eq_none s).2 ⟨hn, howned⟩]
      simp only [runDecode, hbegin]
    obtain ⟨r, -, rfl⟩ := beginDecode_eq_some hbegin
    rw [hexec]
    exact exists_run_eq_decodeLoop s.ports.len rfl howned (Nat.le_add_left _ _)

/-- Settles O36: the steps come to the outcome of the loop, which ends idle or for want of a word. -/
theorem decodeInProgressEnds : Obligations.DecodeInProgressEnds := by
  unfold Obligations.DecodeInProgressEnds
  intro s hinv hp hc
  obtain ⟨k, hk, hrun⟩ :=
    exists_run_eq_decodeLoop (s.ports.len - s.dec.di) hp ⟨hinv.lenOwned hp, hc⟩ (by omega)
  refine ⟨k, hk, ?_⟩
  rw [hrun]
  cases he : decodeLoop (s.ports.len - s.dec.di) s with
  | next t => exact .inl ⟨t, rfl, decodeLoop_idle hinv.decRange (hinv.decBetween hp) he⟩
  | fault r => exact nomatch r
  | refused r => exact .inr (congrArg _ (decodeLoop_refused he))

end Sys2Proof.Machine

/-! The closed list of refusals: each instruction's reasons with their conditions (`60_exceptions.md` R178). -/
namespace Sys2Proof.Machine

section
variable {s : State} {i : Instr} {e : Refusal} {p : Payload}

/-- The two reasons of an operation that owns a buffer of `size` bytes and was told `n`. -/
def BufferReason (s : State) (size n : Nat) (e : Refusal) : Prop :=
  e = .bufferBounds ∧ size < n ∨ e = .bufferShared ∧ s.contended = true

theorem bufferReason_of_firstRefusal {size n : Nat}
    (h : firstRefusal [(decide (size < n), .bufferBounds), (s.contended, .bufferShared)] = some e) :
    BufferReason s size n e := by
  have hmem := firstRefusal_eq_some _ _ h
  simp only [List.mem_cons, Prod.mk.injEq, List.not_mem_nil, or_false, eq_comm (a := true), decide_eq_true_eq] at hmem
  exact hmem.imp And.symm And.symm

theorem refusalDec_eq_some (h : refusalDec s = some e) : BufferReason s s.inSize s.ports.len e :=
  bufferReason_of_firstRefusal h

theorem refusalEncU64_eq_some (h : refusalEncU64 s = some e) : BufferReason s s.outSize s.ports.cap e :=
  bufferReason_of_firstRefusal h

theorem execSizeBig_refused (h : execSizeBig s = .refused e) :
    e = .nmaxExceeded ∧ ¬ FitsNmax s s.ports.nwords ∨ e = .bufferShared ∧ s.contended = true ∨
      e = .nonNormalValue ∧ ¬ NormalForm s := by
  rw [execSizeBig] at h
  split at h
  · next hr =>
      obtain rfl := Host.Outcome.refused.inj h
      have hmem := firstRefusal_eq_some _ _ hr
      simp only [List.mem_cons, Prod.mk.injEq, List.not_mem_nil, or_false, eq_comm (a := true),
        overNmax_eq_true_iff_not_fits, nonNormalValue_eq_true] at hmem
      exact hmem.imp And.symm (Or.imp And.symm And.symm)
  · exact nomatch h

theorem execEncU64_refused (h : execEncU64 s = .refused e) : BufferReason s s.outSize s.ports.cap e := by
  rw [execEncU64_eq] at h
  split at h
  · next hr => exact Host.Outcome.refused.inj h ▸ refusalEncU64_eq_some hr
  · exact nomatch h

theorem execEncBig_refused (h : execEncBig s = .refused e) :
    e = .nmaxExceeded ∧ ¬ FitsNmax s s.ports.nwords ∨ BufferReason s s.outSize s.ports.cap e ∨
      e = .nonNormalValue ∧ ¬ NormalForm s := by
  rw [execEncBig_eq] at h
  split at h
  · next hr =>
      obtain rfl := Host.Outcome.refused.inj h
      have hmem := firstRefusal_eq_some _ _ hr
      simp only [List.mem_cons, Prod.mk.injEq, List.not_mem_nil, or_false, eq_comm (a := true),
        overNmax_eq_true_iff_not_fits, nonNormalValue_eq_true, decide_eq_true_eq] at hmem
      exact hmem.imp And.symm fun hrest =>
        (or_assoc.2 hrest).imp (Or.imp And.symm And.symm) And.symm
  · exact nomatch h

theorem exec_dec_refused (h : exec .dec s = .refused e) :
    BufferReason s s.inSize s.ports.len e ∨ e = .nmaxExceeded ∧ DecodeRequest .dec s 0 0 ∧ Overruns s 0 0 := by
  cases href : refusalDec s with
  | some r =>
    obtain rfl := Host.Outcome.refused.inj ((execDec_of_refusal href).symm.trans h)
    exact .inl (refusalDec_eq_some href)
  | none =>
    have hreq : DecodeRequest .dec s 0 0 := ⟨(refusalDec_eq_none s).1 href, .inl ⟨rfl, rfl, rfl⟩⟩
    obtain ⟨he, hover⟩ := (exec_decode_refused_iff hreq).1 h
    exact .inr ⟨he, hreq, hover⟩

theorem exec_decC_refused (h : exec .decC s = .refused e) :
    e = .preBitsRange ∧ 64 < s.ports.preBits.toNat ∨ BufferReason s s.inSize s.ports.len e ∨
      e = .nmaxExceeded ∧ DecodeRequest .decC s s.ports.preValue.toNat s.ports.preBits.toNat ∧
        Overruns s s.ports.preValue.toNat s.ports.preBits.toNat := by
  rcases Nat.lt_or_ge 64 s.ports.preBits.toNat with hn | hn
  · exact .inl ⟨Host.Outcome.refused.inj (h.symm.trans (preBitsAbove64AreRefused s hn)), hn⟩
  · refine .inr ?_
    cases href : refusalDec s with
    | some r =>
      have he := execDecC_of_refusal ((refusalDecC_eq_refusalDec hn).trans href)
      obtain rfl := Host.Outcome.refused.inj (he.symm.trans h)
      exact .inl (refusalDec_eq_some href)
    | none =>
      have hreq : DecodeRequest .decC s s.ports.preValue.toNat s.ports.preBits.toNat :=
        ⟨(refusalDec_eq_none s).1 href, .inr ⟨rfl, rfl, rfl, hn⟩⟩
      obtain ⟨he, hover⟩ := (exec_decode_refused_iff hreq).1 h
      exact .inr ⟨he, hreq, hover⟩

/-- The reasons a wire byte is refused for before it is looked at. -/
def ByteReason (s : State) (e : Refusal) : Prop :=
  s.phase = .idle ∧ e = .noDecodeInProgress ∨ s.phase = .decoding ∧ BufferReason s s.inSize s.ports.len e

/-- A wire byte is refused for one of these reasons, or by its own micro-step `o'`. -/
theorem byteReason_or {o o' : Host.Outcome State Fault Refusal} (hsome : ∀ r, refusalByte s = some r → o = .refused r)
    (hnone : s.phase = .decoding → InputOwned s → o = o') (h : o = .refused e) :
    ByteReason s e ∨ s.phase = .decoding ∧ o' = .refused e := by
  cases href : refusalByte s with
  | some r =>
    obtain rfl := Host.Outcome.refused.inj ((hsome r href).symm.trans h)
    exact .inl (refusalByte_eq_some href)
  | none =>
    obtain ⟨hp, howned⟩ := (refusalByte_eq_none s).1 href
    exact .inr ⟨hp, (hnone hp howned).symm.trans h⟩

theorem execCont_refused (h : execCont p s = .refused e) :
    ByteReason s e ∨ e = .nmaxExceeded ∧ s.phase = .decoding ∧ ¬ FitsNmax s
      (wordsAfter s.cfg.width (wordNumbers s.dec) s.dec.dacc.toNat s.dec.doff.toNat p.toNat).length :=
  (byteReason_or (fun _ => execCont_of_refusal) execCont_eq h).imp_right fun ⟨hp, htake⟩ =>
    ⟨takeCont_refused htake, hp, takeCont_overruns htake⟩

theorem execTerm_refused (h : execTerm p s = .refused e) :
    ByteReason s e ∨ e = .nmaxExceeded ∧ s.phase = .decoding ∧
      ¬ FitsNmax s (wordsOfTerm s.cfg.width s.dec p).length :=
  (byteReason_or (fun _ => execTerm_of_refusal) execTerm_eq h).imp_right fun ⟨hp, htake⟩ =>
    ⟨takeTerm_refused htake, hp, takeTerm_overruns htake⟩

end

/-- Settles O43: instruction by instruction, each with the reasons it has; the two buffer reasons are shared. -/
theorem everyRefusalHasItsReason : Obligations.EveryRefusalHasItsReason := by
  unfold Obligations.EveryRefusalHasItsReason
  intro i s
  cases he : exec i s with
  | next t => trivial
  | fault r => exact nomatch r
  | refused e =>
    cases i with
    | sizeU64 => exact nomatch he
    | sizeBig =>
      rcases execSizeBig_refused he with ⟨rfl, h⟩ | ⟨rfl, h⟩ | ⟨rfl, h⟩
      · exact .inl ⟨.inl rfl, h⟩
      · exact ⟨h, .inl rfl⟩
      · exact ⟨.inl rfl, h⟩
    | encU64 =>
      rcases execEncU64_refused he with ⟨rfl, h⟩ | ⟨rfl, h⟩
      · exact .inl ⟨.inl rfl, h⟩
      · exact ⟨h, .inr (.inl rfl)⟩
    | encBig =>
      rcases execEncBig_refused he with ⟨rfl, h⟩ | (⟨rfl, h⟩ | ⟨rfl, h⟩) | ⟨rfl, h⟩
      · exact .inl ⟨.inr rfl, h⟩
      · exact .inl ⟨.inr rfl, h⟩
      · exact ⟨h, .inr (.inr (.inl rfl))⟩
      · exact ⟨.inr rfl, h⟩
    | dec =>
      rcases exec_dec_refused he with (⟨rfl, h⟩ | ⟨rfl, h⟩) | ⟨rfl, hreq, hover⟩
      · exact .inr ⟨.inl rfl, h⟩
      · exact ⟨h, .inr (.inr (.inr (.inl rfl)))⟩
      · exact .inr (.inl ⟨_, _, hreq, hover⟩)
    | decC =>
      rcases exec_decC_refused he with ⟨rfl, h⟩ | (⟨rfl, h⟩ | ⟨rfl, h⟩) | ⟨rfl, hreq, hover⟩
      · exact ⟨rfl, h⟩
      · exact .inr ⟨.inr (.inl rfl), h⟩
      · exact ⟨h, .inr (.inr (.inr (.inr (.inl rfl))))⟩
      · exact .inr (.inl ⟨_, _, hreq, hover⟩)
    | reserved6 =>
      obtain rfl := Host.Outcome.refused.inj he
      exact .inl rfl
    | reserved7 =>
      obtain rfl := Host.Outcome.refused.inj he
      exact .inr rfl
    | cont p =>
      rcases execCont_refused he with (⟨hp, rfl⟩ | ⟨hp, ⟨rfl, h⟩ | ⟨rfl, h⟩⟩) | ⟨rfl, hp, h⟩
      · exact ⟨⟨p, .inl rfl⟩, hp⟩
      · exact .inr ⟨.inr (.inr ⟨⟨p, .inl rfl⟩, hp⟩), h⟩
      · exact ⟨h, .inr (.inr (.inr (.inr (.inr ⟨⟨p, .inl rfl⟩, hp⟩))))⟩
      · exact .inr (.inr ⟨hp, p, _, rfl, .inl ⟨rfl, h⟩⟩)
    | term p =>
      rcases execTerm_refused he with (⟨hp, rfl⟩ | ⟨hp, ⟨rfl, h⟩ | ⟨rfl, h⟩⟩) | ⟨rfl, hp, h⟩
      · exact ⟨⟨p, .inr rfl⟩, hp⟩
      · exact .inr ⟨.inr (.inr ⟨⟨p, .inr rfl⟩, hp⟩), h⟩
      · exact ⟨h, .inr (.inr (.inr (.inr (.inr ⟨⟨p, .inr rfl⟩, hp⟩))))⟩
      · exact .inr (.inr ⟨hp, p, _, rfl, .inr ⟨rfl, h⟩⟩)

end Sys2Proof.Machine
